-- ==== Sys2Proof/Word.lean ====
section
/-!
DEFINITION. The word types of the engine (spec/00_scope.md R9, R11, spec/10_state.md R30).
-/

namespace Sys2Proof

/-- One byte: a general register, a timer, a byte of memory (R9: V_WIDTH, TIMER_WIDTH; R70). -/
abbrev Byte := BitVec 8

/-- A 16-bit word: an instruction word, the index register, the stored program counter, the key mask. -/
abbrev Word := BitVec 16

/-- A 12-bit address: the `nnn` field (R14) and one slot of the call stack (R38). -/
abbrev Addr := BitVec 12

/-- The number of a general register, V0 to VF (R32); also the `x` and `y` fields (R14). -/
abbrev Reg := BitVec 4

/-- The framebuffer, 32 rows of 64 one-bit cells (R41). Bit `col` of row `row` is `fb[row][col]`. -/
abbrev Framebuffer := Vector (BitVec 64) 32

/-- Register VF, the flag register (R15, R33). -/
abbrev flagReg : Reg := 15#4

end Sys2Proof
end

