-- ==== Sys2Proof/WellFormed.lean ====
section
/-!
DEFINITION. When a term of Instr is an instruction the decoder can give. The operand types already bound every
field, so the one relation left is BNNN's: its `x` and its `nnn` share the bits 11..8 of the word
(spec/30_encoding.md R101, R112).
-/

namespace Sys2Proof

/-- The fields of one instruction agree with each other. -/
def Instr.wf (i : Instr) : Bool :=
  match i with
  | .jpV0 x nnn => x == nnn.extractLsb' 8 4
  | .cls | .ret => true
  | .jp _ | .call _ | .ldI _ => true
  | .seImm _ _ | .sneImm _ _ | .ldImm _ _ | .addImm _ _ | .rnd _ _ => true
  | .seReg _ _ | .sneReg _ _ => true
  | .ldReg _ _ | .or _ _ | .and _ _ | .xor _ _ | .addReg _ _ | .sub _ _ | .shr _ _ | .subn _ _ | .shl _ _ => true
  | .drw _ _ _ => true
  | .skp _ | .sknp _ => true
  | .ldVxDt _ | .ldVxK _ | .ldDtVx _ | .ldStVx _ | .addIVx _ | .ldFVx _ | .ldBVx _ | .ldMemVx _ | .ldVxMem _ => true

end Sys2Proof
end

