-- ==== Sys2Proof/Decode.lean ====
section
/-!
DEFINITION. Fields, the decoder and the encoder (spec/30_encoding.md). The decoder follows R112 arm by arm; the
encoder is written from the patterns of R110.
-/

namespace Sys2Proof

/-! ## Fields (R101) -/

/-- `fam`, bits 15..12. -/
def famOf (w : Word) : BitVec 4 := w.extractLsb' 12 4

/-- `x`, bits 11..8. -/
def xOf (w : Word) : Reg := w.extractLsb' 8 4

/-- `y`, bits 7..4. -/
def yOf (w : Word) : Reg := w.extractLsb' 4 4

/-- `n`, bits 3..0. -/
def nOf (w : Word) : BitVec 4 := w.extractLsb' 0 4

/-- `nn`, bits 7..0. -/
def nnOf (w : Word) : Byte := w.extractLsb' 0 8

/-- `nnn`, bits 11..0. -/
def nnnOf (w : Word) : Addr := w.extractLsb' 0 12

/-! ## Words put together from fields, one function per format (R102) -/

/-- Format A: fam:4, nnn:12. -/
def formatA (fam : BitVec 4) (nnn : Addr) : Word := fam ++ nnn

/-- Formats XNN and X: fam:4, x:4, nn:8. -/
def formatXNN (fam : BitVec 4) (x : Reg) (nn : Byte) : Word := formatA fam (x ++ nn)

/-- Formats XY and XYN: fam:4, x:4, y:4, n:4. -/
def formatXYN (fam : BitVec 4) (x y : Reg) (n : BitVec 4) : Word := formatXNN fam x (y ++ n)

/-- The big-endian word of two bytes: the byte at the lower address is bits 15..8 (R72). -/
def wordOfBytes (hi lo : Byte) : Word := hi ++ lo

/-! ## The decoder -/

/-- Why bytes are no instruction. Each of the first four names the illegal set of one family (R108). -/
inductive IllegalWord where
  /-- family 0, `nnn` neither 0x0E0 nor 0x0EE -/
  | family0 (nnn : Addr)
  /-- family 8, `n` outside the table -/
  | family8 (n : BitVec 4)
  /-- family E, `nn` neither 0x9E nor 0xA1 -/
  | familyE (nn : Byte)
  /-- family F, `nn` outside the nine values -/
  | familyF (nn : Byte)
  /-- fewer than two bytes were given (only the byte decoder answers this; the engine always fetches two, R111) -/
  | truncated
deriving DecidableEq, Repr

/-- Family 0 (R106): all 12 low bits select. -/
def decodeFamily0 (w : Word) : Except IllegalWord Instr :=
  match nnnOf w with
  | 0x0E0#12 => .ok .cls
  | 0x0EE#12 => .ok .ret
  | nnn => .error (.family0 nnn)

/-- Family 8 (R106): `n` selects. -/
def decodeFamily8 (w : Word) : Except IllegalWord Instr :=
  match nOf w with
  | 0x0#4 => .ok (.ldReg (xOf w) (yOf w))
  | 0x1#4 => .ok (.or (xOf w) (yOf w))
  | 0x2#4 => .ok (.and (xOf w) (yOf w))
  | 0x3#4 => .ok (.xor (xOf w) (yOf w))
  | 0x4#4 => .ok (.addReg (xOf w) (yOf w))
  | 0x5#4 => .ok (.sub (xOf w) (yOf w))
  | 0x6#4 => .ok (.shr (xOf w) (yOf w))
  | 0x7#4 => .ok (.subn (xOf w) (yOf w))
  | 0xE#4 => .ok (.shl (xOf w) (yOf w))
  | n => .error (.family8 n)

/-- Family E (R106): `nn` selects. -/
def decodeFamilyE (w : Word) : Except IllegalWord Instr :=
  match nnOf w with
  | 0x9E#8 => .ok (.skp (xOf w))
  | 0xA1#8 => .ok (.sknp (xOf w))
  | nn => .error (.familyE nn)

/-- Family F (R106): `nn` selects. -/
def decodeFamilyF (w : Word) : Except IllegalWord Instr :=
  match nnOf w with
  | 0x07#8 => .ok (.ldVxDt (xOf w))
  | 0x0A#8 => .ok (.ldVxK (xOf w))
  | 0x15#8 => .ok (.ldDtVx (xOf w))
  | 0x18#8 => .ok (.ldStVx (xOf w))
  | 0x1E#8 => .ok (.addIVx (xOf w))
  | 0x29#8 => .ok (.ldFVx (xOf w))
  | 0x33#8 => .ok (.ldBVx (xOf w))
  | 0x55#8 => .ok (.ldMemVx (xOf w))
  | 0x65#8 => .ok (.ldVxMem (xOf w))
  | nn => .error (.familyF nn)

/-- The decode function of R112, total on every word (R104). -/
def decode (w : Word) : Except IllegalWord Instr :=
  match famOf w with
  | 0x0#4 => decodeFamily0 w
  | 0x1#4 => .ok (.jp (nnnOf w))
  | 0x2#4 => .ok (.call (nnnOf w))
  | 0x3#4 => .ok (.seImm (xOf w) (nnOf w))
  | 0x4#4 => .ok (.sneImm (xOf w) (nnOf w))
  | 0x5#4 => .ok (.seReg (xOf w) (yOf w))
  | 0x6#4 => .ok (.ldImm (xOf w) (nnOf w))
  | 0x7#4 => .ok (.addImm (xOf w) (nnOf w))
  | 0x8#4 => decodeFamily8 w
  | 0x9#4 => .ok (.sneReg (xOf w) (yOf w))
  | 0xA#4 => .ok (.ldI (nnnOf w))
  | 0xB#4 => .ok (.jpV0 (xOf w) (nnnOf w))
  | 0xC#4 => .ok (.rnd (xOf w) (nnOf w))
  | 0xD#4 => .ok (.drw (xOf w) (yOf w) (nOf w))
  | 0xE#4 => decodeFamilyE w
  | _ => decodeFamilyF w  -- the one nibble left is 0xF

/-- Decoding from a list of bytes, lowest address first: two bytes are consumed, always (R111). -/
def decodeBytes (bytes : List Byte) : Except IllegalWord (Instr × List Byte) :=
  match bytes with
  | hi :: lo :: rest => (decode (wordOfBytes hi lo)).map fun i => (i, rest)
  | _ => .error .truncated

/-! ## The encoder -/

/-- The word of an instruction (R110). Families 5 and 9 ignore `n`, so sixteen words give one instruction there;
the encoder writes n = 0 (log 14). -/
def encode (i : Instr) : Word :=
  match i with
  | .cls => 0x00E0#16
  | .ret => 0x00EE#16
  | .jp nnn => formatA 0x1#4 nnn
  | .call nnn => formatA 0x2#4 nnn
  | .seImm x nn => formatXNN 0x3#4 x nn
  | .sneImm x nn => formatXNN 0x4#4 x nn
  | .seReg x y => formatXYN 0x5#4 x y 0x0#4
  | .ldImm x nn => formatXNN 0x6#4 x nn
  | .addImm x nn => formatXNN 0x7#4 x nn
  | .ldReg x y => formatXYN 0x8#4 x y 0x0#4
  | .or x y => formatXYN 0x8#4 x y 0x1#4
  | .and x y => formatXYN 0x8#4 x y 0x2#4
  | .xor x y => formatXYN 0x8#4 x y 0x3#4
  | .addReg x y => formatXYN 0x8#4 x y 0x4#4
  | .sub x y => formatXYN 0x8#4 x y 0x5#4
  | .shr x y => formatXYN 0x8#4 x y 0x6#4
  | .subn x y => formatXYN 0x8#4 x y 0x7#4
  | .shl x y => formatXYN 0x8#4 x y 0xE#4
  | .sneReg x y => formatXYN 0x9#4 x y 0x0#4
  | .ldI nnn => formatA 0xA#4 nnn
  | .jpV0 _ nnn => formatA 0xB#4 nnn
  | .rnd x nn => formatXNN 0xC#4 x nn
  | .drw x y n => formatXYN 0xD#4 x y n
  | .skp x => formatXNN 0xE#4 x 0x9E#8
  | .sknp x => formatXNN 0xE#4 x 0xA1#8
  | .ldVxDt x => formatXNN 0xF#4 x 0x07#8
  | .ldVxK x => formatXNN 0xF#4 x 0x0A#8
  | .ldDtVx x => formatXNN 0xF#4 x 0x15#8
  | .ldStVx x => formatXNN 0xF#4 x 0x18#8
  | .addIVx x => formatXNN 0xF#4 x 0x1E#8
  | .ldFVx x => formatXNN 0xF#4 x 0x29#8
  | .ldBVx x => formatXNN 0xF#4 x 0x33#8
  | .ldMemVx x => formatXNN 0xF#4 x 0x55#8
  | .ldVxMem x => formatXNN 0xF#4 x 0x65#8

/-- The two bytes of an instruction as memory holds them, lowest address first (R72). -/
def encodeBytes (i : Instr) : List Byte :=
  [(encode i).extractLsb' 8 8, (encode i).extractLsb' 0 8]

/-! ## The opcode table -/

/-- One row of spec/opcode_table.json: a word belongs to the row when its bits under `mask` are `pat`. -/
structure OpcodeRow where
  /-- the row's mnemonic, letter for letter -/
  mnemonic : String
  /-- the bits the row fixes ("match") -/
  pat : Word
  /-- which bits those are -/
  mask : Word
deriving DecidableEq, Repr

/-- The word fits the row. -/
def OpcodeRow.fits (r : OpcodeRow) (w : Word) : Bool := w &&& r.mask == r.pat

/-- The row of an instruction in spec/opcode_table.json. -/
def rowOf (i : Instr) : OpcodeRow :=
  match i with
  | .cls => ⟨"CLS", 0x00E0, 0xFFFF⟩
  | .ret => ⟨"RET", 0x00EE, 0xFFFF⟩
  | .jp _ => ⟨"JP", 0x1000, 0xF000⟩
  | .call _ => ⟨"CALL", 0x2000, 0xF000⟩
  | .seImm _ _ => ⟨"SE_IMM", 0x3000, 0xF000⟩
  | .sneImm _ _ => ⟨"SNE_IMM", 0x4000, 0xF000⟩
  | .seReg _ _ => ⟨"SE_REG", 0x5000, 0xF000⟩
  | .ldImm _ _ => ⟨"LD_IMM", 0x6000, 0xF000⟩
  | .addImm _ _ => ⟨"ADD_IMM", 0x7000, 0xF000⟩
  | .ldReg _ _ => ⟨"LD_REG", 0x8000, 0xF00F⟩
  | .or _ _ => ⟨"OR", 0x8001, 0xF00F⟩
  | .and _ _ => ⟨"AND", 0x8002, 0xF00F⟩
  | .xor _ _ => ⟨"XOR", 0x8003, 0xF00F⟩
  | .addReg _ _ => ⟨"ADD_REG", 0x8004, 0xF00F⟩
  | .sub _ _ => ⟨"SUB", 0x8005, 0xF00F⟩
  | .shr _ _ => ⟨"SHR", 0x8006, 0xF00F⟩
  | .subn _ _ => ⟨"SUBN", 0x8007, 0xF00F⟩
  | .shl _ _ => ⟨"SHL", 0x800E, 0xF00F⟩
  | .sneReg _ _ => ⟨"SNE_REG", 0x9000, 0xF000⟩
  | .ldI _ => ⟨"LD_I", 0xA000, 0xF000⟩
  | .jpV0 _ _ => ⟨"JP_V0", 0xB000, 0xF000⟩
  | .rnd _ _ => ⟨"RND", 0xC000, 0xF000⟩
  | .drw _ _ _ => ⟨"DRW", 0xD000, 0xF000⟩
  | .skp _ => ⟨"SKP", 0xE09E, 0xF0FF⟩
  | .sknp _ => ⟨"SKNP", 0xE0A1, 0xF0FF⟩
  | .ldVxDt _ => ⟨"LD_VX_DT", 0xF007, 0xF0FF⟩
  | .ldVxK _ => ⟨"LD_VX_K", 0xF00A, 0xF0FF⟩
  | .ldDtVx _ => ⟨"LD_DT_VX", 0xF015, 0xF0FF⟩
  | .ldStVx _ => ⟨"LD_ST_VX", 0xF018, 0xF0FF⟩
  | .addIVx _ => ⟨"ADD_I_VX", 0xF01E, 0xF0FF⟩
  | .ldFVx _ => ⟨"LD_F_VX", 0xF029, 0xF0FF⟩
  | .ldBVx _ => ⟨"LD_B_VX", 0xF033, 0xF0FF⟩
  | .ldMemVx _ => ⟨"LD_MEM_VX", 0xF055, 0xF0FF⟩
  | .ldVxMem _ => ⟨"LD_VX_MEM", 0xF065, 0xF0FF⟩

/-! ## The host's reader of the table -/

/-- The instruction the decoder reads from a word numbered as spec/opcode_table.json numbers it: the word's two
bytes are laid out big-endian (R72) and given to the decoder. -/
def decodeTableWord (nbits w : Nat) : Option Instr :=
  let v : Word := BitVec.ofNat 16 (w % 2 ^ nbits)
  match decodeBytes [v.extractLsb' 8 8, v.extractLsb' 0 8] with
  | .ok (i, _) => some i
  | .error _ => none

end Sys2Proof
end

