-- ==== Sys2Proof/Config.lean ====
section
/-!
DEFINITION. The named parameters of spec/00_scope.md R10 and the one oracle of the spec.
The parameters are plain data in one record. State carries one such record (log 3), so a statement over every
state holds for every value of every parameter, which is what R10 asks of a claim that names none.
-/

namespace Sys2Proof

/-- SHIFT_SOURCE (R10, D11): the register that 8XY6 and 8XYE shift. -/
inductive ShiftSource where
  | vx
  | vy
deriving DecidableEq, Repr, Inhabited

/-- The parameters of R10, but for the RANDOM oracle. -/
structure Config where
  /-- SHIFT_SOURCE (D11). -/
  shiftSource : ShiftSource
  /-- JUMP_B_USES_VX (D9). -/
  jumpBUsesVx : Bool
  /-- DRAW_WRAP_VERTICAL (D20). -/
  drawWrapVertical : Bool
  /-- FONT, 80 bytes, glyph d at 5d (D17). -/
  font : Vector Byte 80
  /-- LOAD_RESIDUE (D26): the bytes `load` leaves outside the font and the program, as (address, byte) pairs;
  an address with no pair holds `blankByte` (log 5). -/
  residue : List Host.Cell
  /-- LOAD_FB (D26): the framebuffer after `load`. -/
  loadFb : Framebuffer
  /-- TICK_W (D25): how many bits a tick has. -/
  tickW : Nat
deriving DecidableEq, Repr, Inhabited

namespace Config

/-- Glyphs 0 to 7 of the standard font (spec/93_implementation_defined.md G4). -/
def fontLow : List Byte :=
  [0xF0, 0x90, 0x90, 0x90, 0xF0] ++ [0x20, 0x60, 0x20, 0x20, 0x70] ++
  [0xF0, 0x10, 0xF0, 0x80, 0xF0] ++ [0xF0, 0x10, 0xF0, 0x10, 0xF0] ++
  [0x90, 0x90, 0xF0, 0x10, 0x10] ++ [0xF0, 0x80, 0xF0, 0x10, 0xF0] ++
  [0xF0, 0x80, 0xF0, 0x90, 0xF0] ++ [0xF0, 0x10, 0x20, 0x40, 0x40]

/-- Glyphs 8 to F of the standard font (G4). -/
def fontHigh : List Byte :=
  [0xF0, 0x90, 0xF0, 0x90, 0xF0] ++ [0xF0, 0x90, 0xF0, 0x10, 0xF0] ++
  [0xF0, 0x90, 0xF0, 0x90, 0x90] ++ [0xE0, 0x90, 0xE0, 0x90, 0xE0] ++
  [0xF0, 0x80, 0x80, 0x80, 0xF0] ++ [0xE0, 0x90, 0x90, 0x90, 0xE0] ++
  [0xF0, 0x80, 0xF0, 0x80, 0xF0] ++ [0xF0, 0x80, 0xF0, 0x80, 0x80]

/-- The default of FONT (G4, D17), as 80 bytes. -/
def standardFont : List Byte := fontLow ++ fontHigh

/-- The defaults of R10. LOAD_RESIDUE and LOAD_FB have none there: zero bytes (log 5) and blank cells (log 6),
DESIGN CHOICE, unsafe for a statement that names this record. -/
def standard : Config where
  shiftSource := .vx
  jumpBUsesVx := false
  drawWrapVertical := false
  font := ⟨standardFont.toArray, rfl⟩
  residue := []
  loadFb := Vector.replicate 32 0#64
  tickW := 64

/-- The RANDOM oracle (R10, R193, D29): the byte of the n-th draw. It has no body, so nothing can be proved of
its value: "no law; any byte" (log 4). -/
opaque randomByte : Nat → Byte

end Config

end Sys2Proof
end

