-- ==== Sys2Proof/Machine/State.lean ====
section
/-!
DEFINITION. The state vector of the engine (spec/10_state.md R30), the reasons a step stops, and the state after
reset (R49). State is plain data.
-/

namespace Sys2Proof.Machine

/-- The 4096-byte memory (spec/20_memory.md R70) as (address, byte) pairs in one canonical form: addresses strictly
rising and below 4096, no pair equal to what an unlisted address reads as (`blankByte`, log 5). The form is `Memory.wf`. -/
abbrev Memory := List Host.Cell

/-- The kinds of step fault (spec/60_exceptions.md R300), what the `fault` latch holds. Their codes, with those
of no fault and of the load error, are in HostOps.lean. -/
inductive FaultKind where
  | illegalInstruction
  | stackOverflow
  | stackUnderflow
  | misalignedFetch
deriving DecidableEq, Repr

/-- The faults of the engine, each with the recorded information of R300. The first four are the `FAULT K(info)` of
the step algorithm (R141): the sequencer takes them as R304 and R305 describe (a next state with the latch set). Only
the last one ends a `step`. All five are safe: each is what the spec says the engine answers. -/
inductive Fault where
  /-- Raised by the sequencer at decode: the word `w` fetched from `a` is in the illegal set (R108, R301). Safe. -/
  | illegalInstruction (a : Word) (w : Word)
  /-- Raised by CALL when the stack holds 16 entries, with the address of the CALL (R150). Safe. -/
  | stackOverflow (a : Word)
  /-- Raised by RET when the stack is empty, with the address of the RET (R151). Safe. -/
  | stackUnderflow (a : Word)
  /-- Raised by the sequencer at a fetch with an odd pc (R143). Safe. -/
  | misalignedFetch (pc : Word)
  /-- Raised by the guard of every step after a faulting one: "Every later step returns Err(kind) at once and changes
  nothing" (R305). Safe. -/
  | latched (kind : FaultKind)
deriving DecidableEq, Repr

/-- The kind under which a fault is latched and reported (R300). -/
def Fault.kind (f : Fault) : FaultKind :=
  match f with
  | .illegalInstruction _ _ => .illegalInstruction
  | .stackOverflow _ => .stackOverflow
  | .stackUnderflow _ => .stackUnderflow
  | .misalignedFetch _ => .misalignedFetch
  | .latched k => k

/-- Why the model gives a step no meaning. -/
inductive Refusal where
  /-- Raised by an arm of `exec` whose instruction has no meaning yet. Safe. No arm of this model raises it. -/
  | notModelled (mnemonic : String)
  /-- Raised by the guard: `step` while `loaded` is false, the refusal `Unloaded` of R338. Safe for hosts that keep the
  contract; the spec gives no step to the others (D32). -/
  | unloaded
  /-- Raised by the guard: a tick below `last_tick`, the refusal `TickRegression` of R338. Safe for hosts that keep the
  contract (D25). -/
  | tickRegression
deriving DecidableEq, Repr

/-- The arguments of one call of `step` (R141, R330). A tick has TICK_W bits; the engine reads it mod 2^TICK_W (log 3). -/
structure StepArgs where
  keys : Word
  tick : Nat
deriving DecidableEq, Repr, Inhabited

/-- The result of one call of `step` (R330): `Ok(sound_on)` or `Err` with the recorded information. -/
inductive StepReply where
  | ok (soundOn : Bool)
  | err (f : Fault)
deriving DecidableEq, Repr

/-- The state of the engine. The first fourteen fields are the table of R30; the last five are the model's own. -/
structure State where
  /-- `memory` (R70) -/
  mem : Memory
  /-- the general registers V0 to VF (R32) -/
  V : Vector Byte 16
  /-- the index register: 16 bits stored, 12 used (R37) -/
  I : Word
  /-- the program counter: 16 bits, always below 4096 (R34) -/
  pc : Word
  /-- the call stack's slots (R38) -/
  stack : Vector Addr 16
  /-- the number of live entries of the call stack, 0 to 16 (R38, R47) -/
  sp : Fin 17
  /-- the delay timer (R39) -/
  DT : Byte
  /-- the sound timer (R39) -/
  ST : Byte
  /-- the key latch: bit n is set while key n is held (R40) -/
  keys : Word
  /-- the framebuffer (R41) -/
  fb : Framebuffer
  /-- `WaitingForKey(target_register)`, or absent (R42) -/
  wait : Option Reg
  /-- the tick of the latest successful step (R43) -/
  lastTick : Option Nat
  /-- the fault latch (R44) -/
  fault : Option FaultKind
  /-- a load has succeeded and none has failed since (R45) -/
  loaded : Bool
  /-- model's own: the key latch before the current step, the `prev` of R141 (log 8) -/
  prev : Word
  /-- model's own: the result of the latest step, an output that nothing reads (R31, R322; log 9) -/
  reply : Option StepReply
  /-- model's own: how many free values the run has consumed (R13 `Draw8`; log 4) -/
  draws : Nat
  /-- model's own: the host's coming calls of `step`, oldest first (R31, R331; log 2) -/
  calls : List StepArgs
  /-- model's own: the parameters of R10; nothing writes them (log 3) -/
  cfg : Config
deriving DecidableEq, Repr, Inhabited

/-- The state after reset: after a successful `load` of the empty program (R49, R360; log 1). The engine before any load
is State.beforeLoad (R45). Memory lists nothing:
an unlisted address reads as the reset contents. Slots of the stack, framebuffer cells and residue bytes have no value
in the spec: DESIGN CHOICE (logs 5, 6, 7). -/
def State.reset : State where
  mem := []
  V := Vector.replicate 16 0
  I := 0
  pc := 0x200
  stack := Vector.replicate 16 0
  sp := 0
  DT := 0
  ST := 0
  keys := 0
  fb := Config.standard.loadFb
  wait := none
  lastTick := none
  fault := none
  loaded := true
  prev := 0
  reply := none
  draws := 0
  calls := []
  cfg := Config.standard

end Sys2Proof.Machine
end

