-- ==== Sys2Proof/Machine/Memory.lean ====
section
/-!
DEFINITION. Memory by its canonical form: what an unlisted address reads as, one read, one write
(spec/20_memory.md R70, R77, R81). Addresses here are already reduced; the reduction is in Ops (R75) or, for the debug
accessors, absent (spec/60_exceptions.md R335).
-/

namespace Sys2Proof.Machine

/-- What an address with no pair reads as: the reset contents (R49): the standard font at 0x000..0x04F, and
elsewhere 0x00, for which the spec gives no value (DESIGN CHOICE, unsafe, log 5). -/
def blankByte (a : Nat) : Byte := Config.standardFont[a]?.getD 0

/-- The byte at an address. The list is sorted, so a larger key ends the search. -/
def Memory.read (m : Memory) (a : Nat) : Byte :=
  match m with
  | [] => blankByte a
  | (b, v) :: rest => if a < b then blankByte a else if a = b then v else Memory.read rest a

/-- Write one byte, keeping the canonical form: writing the blank byte removes the pair. -/
def Memory.write (m : Memory) (a : Nat) (v : Byte) : Memory :=
  match m with
  | [] => if v = blankByte a then [] else [(a, v)]
  | (b, w) :: rest =>
    if a < b then
      if v = blankByte a then (b, w) :: rest else (a, v) :: (b, w) :: rest
    else if a = b then
      if v = blankByte a then rest else (a, v) :: rest
    else (b, w) :: Memory.write rest a v

/-- The canonical form from address `lo` on. -/
def Memory.wfFrom (lo : Nat) (m : Memory) : Bool :=
  match m with
  | [] => true
  | (a, v) :: rest => decide (lo ≤ a) && decide (a < 4096) && decide (v ≠ blankByte a) && Memory.wfFrom (a + 1) rest

/-- The canonical form: keys strictly rising and below 4096, no pair that says what the blank memory says. -/
def Memory.wf (m : Memory) : Bool := Memory.wfFrom 0 m

/-- Write bytes at rising addresses, wrapping at 4096 (R75). -/
def Memory.writeBytes (m : Memory) (a : Nat) (bytes : List Byte) : Memory :=
  match bytes with
  | [] => m
  | b :: rest => Memory.writeBytes (Memory.write m (a % 4096) b) (a + 1) rest

/-- Write pairs in the order listed, each at its address mod 4096. -/
def Memory.writeCells (m : Memory) (cells : List Host.Cell) : Memory :=
  match cells with
  | [] => m
  | (a, v) :: rest => Memory.writeCells (Memory.write m (a % 4096) v) rest

end Sys2Proof.Machine
end

