-- ==== Sys2Proof/Machine/Ops.lean ====
section
/-!
DEFINITION. The operations over registers, memory, stack, framebuffer and the sequencer's own state that every
meaning and every transaction is written with (spec/00_scope.md R13), and taking a fault (R304, R305).
-/

namespace Sys2Proof.Machine

/-! ## General registers (R13, R32) -/

/-- `V[x]`. -/
def State.reg (s : State) (x : Reg) : Byte := s.V[x.toNat]'x.isLt

/-- `V[x] <- v`. No register is hard-wired (R32). -/
def State.setReg (s : State) (x : Reg) (v : Byte) : State := { s with V := s.V.set x.toNat v x.isLt }

/-! ## Index register (R37) -/

/-- `I <- v`. -/
def State.setIndex (s : State) (v : Word) : State := { s with I := v }

/-! ## Program counter (R34, R142, R144) -/

/-- A value mod 4096, in 16 bits: bits 15 to 12 read 0 (R34). -/
def maskPc (v : Word) : Word := (v.setWidth 12).setWidth 16

/-- `pc <- v`: every write stores the value mod 4096 (R34). -/
def State.setPc (s : State) (v : Word) : State := { s with pc := maskPc v }

/-- The pc moves on by one instruction: the advance after a fetch (R142), and what a taken skip adds (R144). -/
def State.advance (s : State) : State := s.setPc (s.pc + 2)

/-- A conditional skip (R144). -/
def State.skipIf (s : State) (taken : Bool) : State := if taken then s.advance else s

/-- During execution the pc is the instruction's address plus 2 (R35): the address `a` it was fetched from. -/
def State.instrAddr (s : State) : Word := maskPc (s.pc - 2)

/-! ## Memory (R13, R70, R75) -/

/-- `MemRead(a, 1)`: the byte at `a mod 4096`. -/
def State.load8 (s : State) (a : Nat) : Byte := Memory.read s.mem (a % 4096)

/-- `MemWrite(a, 1, v)`: no address is protected (R79). -/
def State.store8 (s : State) (a : Nat) (v : Byte) : State := { s with mem := Memory.write s.mem (a % 4096) v }

/-- Bytes stored at rising addresses, each reduced mod 4096 (R74, R75). -/
def State.storeBytes (s : State) (a : Nat) (bytes : List Byte) : State :=
  { s with mem := Memory.writeBytes s.mem a bytes }

/-! ## Call stack (R38, R150, R151) -/

/-- Push a return address; no state when the stack is full. -/
def State.push (s : State) (v : Addr) : Option State :=
  if h : s.sp.val < 16 then
    some { s with stack := s.stack.set s.sp.val v h, sp := ⟨s.sp.val + 1, by omega⟩ }
  else none

/-- Pop: the top entry and the state without it; the slot keeps its stale value (R151). No state when empty. -/
def State.pop (s : State) : Option (Addr × State) :=
  if h : 0 < s.sp.val then
    have hj : s.sp.val - 1 < 16 := by have := s.sp.isLt; omega
    some (s.stack[s.sp.val - 1], { s with sp := ⟨s.sp.val - 1, by omega⟩ })
  else none

/-! ## Timers (R39, R320, R322) -/

/-- `DT <- v`. -/
def State.setDelay (s : State) (v : Byte) : State := { s with DT := v }

/-- `ST <- v`. -/
def State.setSound (s : State) (v : Byte) : State := { s with ST := v }

/-- The sound output: "strictly greater than 1" (R322). -/
def State.soundOn (s : State) : Bool := decide (1 < s.ST.toNat)

/-- The elapsed ticks since the previous step, 0 on the first one (R320). -/
def State.tickDelta (s : State) (tick : Nat) : Nat :=
  match s.lastTick with
  | some t0 => tick - t0
  | none => 0

/-- A timer after `d` ticks: reduced by `min(current_value, d)` (R320). -/
def decayed (t : Byte) (d : Nat) : Byte := BitVec.ofNat 8 (t.toNat - min t.toNat d)

/-- `Decay(tick)` (R320). -/
def State.decay (s : State) (tick : Nat) : State :=
  { s with DT := decayed s.DT (s.tickDelta tick), ST := decayed s.ST (s.tickDelta tick), lastTick := some tick }

/-! ## Framebuffer (R41) -/

/-- `fb[row][col]`. -/
def cell (fb : Framebuffer) (row col : Nat) : Bool := (fb[row]?.getD 0).getLsbD col

/-- `fb[row][col] <- fb[row][col] ^ 1`. -/
def toggleCell (fb : Framebuffer) (row col : Nat) : Framebuffer :=
  fb.setIfInBounds row ((fb[row]?.getD 0) ^^^ BitVec.twoPow 64 col)

/-- Replace the framebuffer. -/
def State.setFb (s : State) (fb : Framebuffer) : State := { s with fb := fb }

/-! ## Keys and the wait state (R40, R42, R262 to R264) -/

/-- The input phase: the old latch becomes `prev`, the argument becomes the latch (R141). -/
def State.latchKeys (s : State) (keysIn : Word) : State := { s with prev := s.keys, keys := keysIn }

/-- `held(v)`: a value of 16 or more names no key (R264). -/
def State.held (s : State) (v : Byte) : Bool := decide (v.toNat < 16) && s.keys.getLsbD v.toNat

/-- The keys that went from not-down to down in this step (R262, R263). -/
def State.newKeys (s : State) : Word := s.keys &&& ~~~s.prev

/-- The lowest-numbered key of a mask, if there is one (R262). -/
def lowestKey (mask : Word) : Option Nat := (List.range 16).find? fun i => mask.getLsbD i

/-- `wait <- w`. -/
def State.setWait (s : State) (w : Option Reg) : State := { s with wait := w }

/-- `WaitPhase(r, prev)` (R263): completes on a key that went down, and otherwise changes nothing. -/
def State.waitPhase (s : State) (r : Reg) : State :=
  match lowestKey s.newKeys with
  | some k => ((s.setReg r (BitVec.ofNat 8 k)).setWait none).advance
  | none => s

/-! ## The RANDOM oracle (R13 `Draw8`, R193) -/

/-- The byte the oracle answers next: a free value (log 4). -/
def State.nextRandom (s : State) : Byte := Config.randomByte s.draws

/-- One free value has been consumed. -/
def State.countDraw (s : State) : State := { s with draws := s.draws + 1 }

/-! ## Fetch (R72, R73, R143) -/

/-- The big-endian word at the pc (R73). -/
def State.fetchWord (s : State) : Word := wordOfBytes (s.load8 s.pc.toNat) (s.load8 (s.pc.toNat + 1))

/-- Fetch and decode: the alignment check comes first and reads no byte (R143, R308); an illegal word is recorded
with its address (R301). -/
def State.fetch (s : State) : Except Fault Instr :=
  if s.pc.toNat % 2 = 1 then .error (.misalignedFetch s.pc)
  else
    match decode s.fetchWord with
    | .ok i => .ok i
    | .error _ => .error (.illegalInstruction s.pc s.fetchWord)

/-! ## Taking a fault (R304, R305, R306)

This engine's exception entry. There is no vector, no saved register and no mode: the state from before the step is
kept whole and the latch is set. There is no return from it (R307): only a `load` clears the latch. -/

/-- The state after a fault: `state <- save; fault <- some(K)` (R141). The result is `Err` with its information. -/
def State.takeFault (save : State) (f : Fault) : State :=
  { save with fault := some f.kind, reply := some (.err f) }

/-! ## The end of a step (R140, R141) -/

/-- Sound sample, then decay, then the result `Ok(sound_on)` (R283, R322). -/
def State.finish (s : State) (tick : Nat) : State :=
  { s.decay tick with reply := some (.ok s.soundOn) }

/-- The tick argument as the engine reads it: TICK_W bits (R141, D25; log 3). -/
def State.tickOf (s : State) (a : StepArgs) : Nat := a.tick % 2 ^ s.cfg.tickW

/-- `last_tick = some(t0) and tick < t0` (R141, R338). -/
def State.tickRegresses (s : State) (tick : Nat) : Bool :=
  match s.lastTick with
  | some t0 => decide (tick < t0)
  | none => false

/-! ## The host's next call (log 2) -/

/-- The arguments of the step the host calls next. With no call listed they are the default arguments of
spec/95_test_vectors.md: keys 0x0000 and the previous tick, 0 when there is none (DESIGN CHOICE, log 2). -/
def State.nextArgs (s : State) : StepArgs := s.calls.head?.getD { keys := 0, tick := s.lastTick.getD 0 }

/-- The call is consumed. -/
def State.popCall (s : State) : State := { s with calls := s.calls.tail }

end Sys2Proof.Machine
end

