-- ==== Sys2Proof/Machine/Operands.lean ====
section
/-!
DEFINITION. The operand forms (spec/30_encoding.md R103): immediates widened to where they go, the register a shift
or an indexed jump reads, bytes at `I + k`, the registers 0..x, decimal digits, glyph addresses and the sprite anchor.
-/

namespace Sys2Proof.Machine

/-- `zext_16(nnn)`: an address operand is used as is, without scaling (R103). -/
def addrWord (nnn : Addr) : Word := nnn.setWidth 16

/-- A byte operand widened to 16 bits, without sign (R12). -/
def byteWord (v : Byte) : Word := v.setWidth 16

/-- The operand of 8XY6 and 8XYE, by SHIFT_SOURCE (R188, R190). -/
def State.shiftOperand (s : State) (x y : Reg) : Byte :=
  match s.cfg.shiftSource with
  | .vx => s.reg x
  | .vy => s.reg y

/-- The offset of BNNN, by JUMP_B_USES_VX (R153). -/
def State.jumpOffset (s : State) (x : Reg) : Byte := s.reg (if s.cfg.jumpBUsesVx then x else 0)

/-- `MemRead(I + k, 1)` (R75). -/
def State.indexed (s : State) (k : Nat) : Byte := s.load8 (s.I.toNat + k)

/-- `V[0], ..., V[x]`, the bytes of FX55 in ascending order (R103, R194). -/
def State.regsUpTo (s : State) (x : Reg) : List Byte := s.V.toList.take (x.toNat + 1)

/-- A register file with `V[k] <- MemRead(base + k, 1)` done for the first `count` registers, in ascending order
(R195). -/
def loadInto (m : Memory) (base count : Nat) (v : Vector Byte 16) : Vector Byte 16 :=
  match count with
  | 0 => v
  | k + 1 => (loadInto m base k v).setIfInBounds k (Memory.read m ((base + k) % 4096))

/-- The loads of FX65 (R195). -/
def State.loadRegs (s : State) (base count : Nat) : State := { s with V := loadInto s.mem base count s.V }

/-- `I <- (I + x + 1) mod 65536` after a block transfer (R194, R195). -/
def State.indexPast (s : State) (x : Reg) : State := s.setIndex (s.I + BitVec.ofNat 16 (x.toNat + 1))

/-- Hundreds, tens and ones (R196). -/
def decimalDigits (v : Byte) : List Byte :=
  [BitVec.ofNat 8 (v.toNat / 100), BitVec.ofNat 8 (v.toNat / 10 % 10), BitVec.ofNat 8 (v.toNat % 10)]

/-- `5 * (v mod 16)`, the address of the glyph of the low digit (R197). -/
def glyphAddr (v : Byte) : Word := BitVec.ofNat 16 (5 * (v.toNat % 16))

/-- The column of a sprite's left edge (R241, R242). -/
def anchorCol (v : Byte) : Nat := v.toNat % 64

/-- The row of a sprite's top edge (R241, R242). -/
def anchorRow (v : Byte) : Nat := v.toNat % 32

end Sys2Proof.Machine
end

