-- ==== Sys2Proof/Machine/Flags.lean ====
section
/-!
DEFINITION. The flag computations. The engine has no status register: its one flag is VF, a byte that holds 0 or 1
(spec/10_state.md R33, R46), and a family-8 instruction writes its result first and its flag last
(spec/41_alu_data.md R199).
-/

namespace Sys2Proof.Machine

/-- A flag as VF holds it. -/
def flagByte (b : Bool) : Byte := if b then 1 else 0

/-- The carry of an 8-bit sum: "the unsigned sum exceeds 255" (R186). -/
def carryOf (a b : Byte) : Byte := flagByte (decide (255 < a.toNat + b.toNat))

/-- No borrow in `a - b`: `a >= b` (R187, R189). -/
def noBorrowOf (a b : Byte) : Byte := flagByte (decide (b.toNat ≤ a.toNat))

/-- The bit a right shift moves out: the least-significant bit before the shift (R188). -/
def lowBitOf (v : Byte) : Byte := v &&& 1

/-- The bit a left shift moves out: the most-significant bit before the shift (R190). -/
def highBitOf (v : Byte) : Byte := (v >>> 7) &&& 1

/-- Result to `V[x]`, then flag to `V[15]` (R199): with x = 0xF the flag stays. -/
def State.setResultFlag (s : State) (x : Reg) (result flag : Byte) : State :=
  (s.setReg x result).setReg flagReg flag

end Sys2Proof.Machine
end

