-- ==== Sys2Proof/Machine/Alu.lean ====
section
/-!
DEFINITION. Immediate load and add, the register-register operations of family 8, and RND
(spec/41_alu_data.md R180 to R190, R193). Every operand is read before anything is written; none of them faults.
-/

namespace Sys2Proof.Machine

/-- LD Vx, nn, `6XNN` (R180): no flag. -/
def execLdImm (x : Reg) (nn : Byte) (s : State) : Host.Outcome State Fault Refusal :=
  .next (s.setReg x nn)

/-- ADD Vx, nn, `7XNN` (R181): VF is not written even when the sum exceeds 255. -/
def execAddImm (x : Reg) (nn : Byte) (s : State) : Host.Outcome State Fault Refusal :=
  .next (s.setReg x (s.reg x + nn))

/-- LD Vx, Vy, `8XY0` (R182): VF is cleared (90_conflicts.md C8). -/
def execLdReg (x y : Reg) (s : State) : Host.Outcome State Fault Refusal :=
  .next (s.setResultFlag x (s.reg y) 0)

/-- OR Vx, Vy, `8XY1` (R183). -/
def execOr (x y : Reg) (s : State) : Host.Outcome State Fault Refusal :=
  .next (s.setResultFlag x (s.reg x ||| s.reg y) 0)

/-- AND Vx, Vy, `8XY2` (R184). -/
def execAnd (x y : Reg) (s : State) : Host.Outcome State Fault Refusal :=
  .next (s.setResultFlag x (s.reg x &&& s.reg y) 0)

/-- XOR Vx, Vy, `8XY3` (R185). -/
def execXor (x y : Reg) (s : State) : Host.Outcome State Fault Refusal :=
  .next (s.setResultFlag x (s.reg x ^^^ s.reg y) 0)

/-- ADD Vx, Vy, `8XY4` (R186). -/
def execAddReg (x y : Reg) (s : State) : Host.Outcome State Fault Refusal :=
  .next (s.setResultFlag x (s.reg x + s.reg y) (carryOf (s.reg x) (s.reg y)))

/-- SUB Vx, Vy, `8XY5` (R187). -/
def execSub (x y : Reg) (s : State) : Host.Outcome State Fault Refusal :=
  .next (s.setResultFlag x (s.reg x - s.reg y) (noBorrowOf (s.reg x) (s.reg y)))

/-- SHR Vx {, Vy}, `8XY6` (R188). -/
def execShr (x y : Reg) (s : State) : Host.Outcome State Fault Refusal :=
  .next (s.setResultFlag x (s.shiftOperand x y >>> 1) (lowBitOf (s.shiftOperand x y)))

/-- SUBN Vx, Vy, `8XY7` (R189): "same rule with operands swapped". -/
def execSubn (x y : Reg) (s : State) : Host.Outcome State Fault Refusal :=
  .next (s.setResultFlag x (s.reg y - s.reg x) (noBorrowOf (s.reg y) (s.reg x)))

/-- SHL Vx {, Vy}, `8XYE` (R190). -/
def execShl (x y : Reg) (s : State) : Host.Outcome State Fault Refusal :=
  .next (s.setResultFlag x (s.shiftOperand x y <<< 1) (highBitOf (s.shiftOperand x y)))

/-- RND Vx, nn, `CXNN` (R193): one draw of the oracle, a free value (log 4), masked with nn. -/
def execRnd (x : Reg) (nn : Byte) (s : State) : Host.Outcome State Fault Refusal :=
  .next (s.countDraw.setReg x (s.nextRandom &&& nn))

end Sys2Proof.Machine
end

