-- ==== Sys2Proof/Machine/ControlFlow.lean ====
section
/-!
DEFINITION. Calls, returns, jumps and conditional skips (spec/40_control_flow.md). A meaning is run on the state in
which the keys are latched and the pc is already the instruction's address plus 2 (R141, R142). No jump checks its
target's alignment (R146).
-/

namespace Sys2Proof.Machine

/-- CALL nnn, `2NNN` (R150). -/
def execCall (nnn : Addr) (s : State) : Host.Outcome State Fault Refusal :=
  match s.push (s.pc.setWidth 12) with
  | some t => .next (t.setPc (addrWord nnn))
  | none => .fault (.stackOverflow s.instrAddr)

/-- RET, `00EE` (R151). -/
def execRet (s : State) : Host.Outcome State Fault Refusal :=
  match s.pop with
  | some (a, t) => .next (t.setPc (addrWord a))
  | none => .fault (.stackUnderflow s.instrAddr)

/-- JP nnn, `1NNN` (R152). -/
def execJp (nnn : Addr) (s : State) : Host.Outcome State Fault Refusal :=
  .next (s.setPc (addrWord nnn))

/-- JP V0, nnn, `BNNN` (R153): the 13-bit sum is then masked. -/
def execJpV0 (x : Reg) (nnn : Addr) (s : State) : Host.Outcome State Fault Refusal :=
  .next (s.setPc (addrWord nnn + byteWord (s.jumpOffset x)))

/-- SE Vx, nn, `3XNN` (R155). -/
def execSeImm (x : Reg) (nn : Byte) (s : State) : Host.Outcome State Fault Refusal :=
  .next (s.skipIf (s.reg x == nn))

/-- SNE Vx, nn, `4XNN` (R156). -/
def execSneImm (x : Reg) (nn : Byte) (s : State) : Host.Outcome State Fault Refusal :=
  .next (s.skipIf (s.reg x != nn))

/-- SE Vx, Vy, `5XYN` (R157). -/
def execSeReg (x y : Reg) (s : State) : Host.Outcome State Fault Refusal :=
  .next (s.skipIf (s.reg x == s.reg y))

/-- SNE Vx, Vy, `9XYN` (R158). -/
def execSneReg (x y : Reg) (s : State) : Host.Outcome State Fault Refusal :=
  .next (s.skipIf (s.reg x != s.reg y))

end Sys2Proof.Machine
end

