-- ==== Sys2Proof/Machine/Drawing.lean ====
section
/-!
DEFINITION. CLS and DRW (spec/42_drawing.md). The loops of R241 are folds in the order the rule gives.
-/

namespace Sys2Proof.Machine

/-- What DRW has so far: the framebuffer and `hit`. -/
abbrev Canvas := Framebuffer × Bool

/-- One set sprite pixel: a lit cell counts as a collision, and the cell is inverted (R241, R243). -/
def plot (c : Canvas) (row col : Nat) : Canvas := (toggleCell c.1 row col, c.2 || cell c.1 row col)

/-- The eight pixels of a sprite byte in one row: bit 7 is the leftmost, and columns wrap (R241, D18). -/
def drawByte (c : Canvas) (row x0 : Nat) (b : Byte) : Canvas :=
  (List.range 8).foldl (fun c k => if b.getLsbD (7 - k) then plot c row ((x0 + k) % 64) else c) c

/-- The framebuffer row of sprite row r: past row 31 it wraps or is clipped, by DRAW_WRAP_VERTICAL (R242). -/
def spriteRow (wrap : Bool) (y0 r : Nat) : Option Nat :=
  if y0 + r < 32 then some (y0 + r)
  else if wrap then some ((y0 + r) % 32)
  else none

/-- Sprite row r of R241's loop, its byte at `I + r`; a clipped row's byte is not used. -/
def State.drawRow (s : State) (x0 y0 : Nat) (c : Canvas) (r : Nat) : Canvas :=
  match spriteRow s.cfg.drawWrapVertical y0 r with
  | some row => drawByte c row x0 (s.indexed r)
  | none => c

/-- The whole sprite of n rows, from a framebuffer with no hit yet (R241). -/
def State.drawSprite (s : State) (x0 y0 n : Nat) : Canvas :=
  (List.range n).foldl (s.drawRow x0 y0) (s.fb, false)

/-- CLS, `00E0` (R240). -/
def execCls (s : State) : Host.Outcome State Fault Refusal :=
  .next (s.setFb (Vector.replicate 32 0))

/-- DRW Vx, Vy, n, `DXYN` (R241): the coordinates are read before VF is overwritten. -/
def execDrw (x y : Reg) (n : BitVec 4) (s : State) : Host.Outcome State Fault Refusal :=
  let c := s.drawSprite (anchorCol (s.reg x)) (anchorRow (s.reg y)) n.toNat
  .next ((s.setFb c.1).setReg flagReg (flagByte c.2))

end Sys2Proof.Machine
end

