-- ==== Sys2Proof/Machine/IndexMemory.lean ====
section
/-!
DEFINITION. The index register and the instructions that move data between registers and memory
(spec/41_alu_data.md R191, R192, R194 to R197). No memory access can fault (R79).
-/

namespace Sys2Proof.Machine

/-- LD I, nnn, `ANNN` (R191). -/
def execLdI (nnn : Addr) (s : State) : Host.Outcome State Fault Refusal :=
  .next (s.setIndex (addrWord nnn))

/-- ADD I, Vx, `FX1E` (R192): mod 65536, VF is not written. -/
def execAddIVx (x : Reg) (s : State) : Host.Outcome State Fault Refusal :=
  .next (s.setIndex (s.I + byteWord (s.reg x)))

/-- LD F, Vx, `FX29` (R197). -/
def execLdFVx (x : Reg) (s : State) : Host.Outcome State Fault Refusal :=
  .next (s.setIndex (glyphAddr (s.reg x)))

/-- LD B, Vx, `FX33` (R196): three digits at I, I + 1 and I + 2; I is unchanged. -/
def execLdBVx (x : Reg) (s : State) : Host.Outcome State Fault Refusal :=
  .next (s.storeBytes s.I.toNat (decimalDigits (s.reg x)))

/-- LD [I], Vx, `FX55` (R194): V0 to Vx are stored from I on, then I moves past them. -/
def execLdMemVx (x : Reg) (s : State) : Host.Outcome State Fault Refusal :=
  .next ((s.storeBytes s.I.toNat (s.regsUpTo x)).indexPast x)

/-- LD Vx, [I], `FX65` (R195): V0 to Vx are loaded from the old I on, then I moves past them. -/
def execLdVxMem (x : Reg) (s : State) : Host.Outcome State Fault Refusal :=
  .next ((s.loadRegs s.I.toNat (x.toNat + 1)).indexPast x)

end Sys2Proof.Machine
end

