-- ==== Sys2Proof/Machine/Input.lean ====
section
/-!
DEFINITION. The key tests and the blocking wait (spec/43_input_wait.md). `keys` is already this step's argument and
`prev` the latch before it (R141).
-/

namespace Sys2Proof.Machine

/-- SKP Vx, `EX9E` (R260). -/
def execSkp (x : Reg) (s : State) : Host.Outcome State Fault Refusal :=
  .next (s.skipIf (s.held (s.reg x)))

/-- SKNP Vx, `EXA1` (R261). -/
def execSknp (x : Reg) (s : State) : Host.Outcome State Fault Refusal :=
  .next (s.skipIf (!s.held (s.reg x)))

/-- LD Vx, K, `FX0A` (R262): completes in this step if a key went down, else waits with the pc back at the FX0A. -/
def execLdVxK (x : Reg) (s : State) : Host.Outcome State Fault Refusal :=
  .next (match lowestKey s.newKeys with
    | some k => s.setReg x (BitVec.ofNat 8 k)
    | none => (s.setWait (some x)).setPc s.instrAddr)

end Sys2Proof.Machine
end

