-- ==== Sys2Proof/Machine/Timers.lean ====
section
/-!
DEFINITION. The timer instructions (spec/44_timers.md). Sound sample and decay come after them in the same step
(R283); they are in Ops.
-/

namespace Sys2Proof.Machine

/-- LD Vx, DT, `FX07` (R280). -/
def execLdVxDt (x : Reg) (s : State) : Host.Outcome State Fault Refusal :=
  .next (s.setReg x s.DT)

/-- LD DT, Vx, `FX15` (R281). -/
def execLdDtVx (x : Reg) (s : State) : Host.Outcome State Fault Refusal :=
  .next (s.setDelay (s.reg x))

/-- LD ST, Vx, `FX18` (R282). -/
def execLdStVx (x : Reg) (s : State) : Host.Outcome State Fault Refusal :=
  .next (s.setSound (s.reg x))

end Sys2Proof.Machine
end

