-- ==== Sys2Proof/Machine/Sequencer.lean ====
section
/-!
DEFINITION. The step sequencer (spec/40_control_flow.md R140 to R144, spec/60_exceptions.md R304, R305, R308, R338).
-/

namespace Sys2Proof.Machine

/-- Phase 3 when no wait is pending: fetch, advance, decode, execute (R141). A fault leaves only its reason: what the
instruction had done so far is dropped (R304). -/
def State.runInstr (s : State) : Host.Outcome State Fault Refusal :=
  match s.fetch with
  | .error f => .fault f
  | .ok i => exec i s.advance

/-- Phase 3: the wait phase, or one instruction (R141, R263). -/
def State.phase3 (s : State) : Host.Outcome State Fault Refusal :=
  match s.wait with
  | some r => .next (s.waitPhase r)
  | none => s.runInstr

/-- Phases 2 to 6, once the guard has let the call through, with a tick of TICK_W bits (R141). A fault is taken on
the state from before the step, and the machine goes on to a state whose latch is set (R305; log 10). -/
def State.runStep (s : State) (keysIn : Word) (tick : Nat) : Host.Outcome State Fault Refusal :=
  match (s.latchKeys keysIn).phase3 with
  | .next t => .next (t.finish tick)
  | .fault f => .next (s.takeFault f)
  | .refused r => .refused r

/-- `step(keys, tick)` (R141, R331): the guard, then the phases. -/
def stepWith (a : StepArgs) (s : State) : Host.Outcome State Fault Refusal :=
  if s.loaded = false then .refused .unloaded
  else
    match s.fault with
    | some k => .fault (.latched k)
    | none =>
      if s.tickRegresses (s.tickOf a) then .refused .tickRegression
      else s.runStep a.keys (s.tickOf a)

/-! ## Placing an instruction where the next step fetches it (log 12) -/

/-- All that a fetch needs besides the bytes: a loaded engine, no latch, no wait, an even pc below 4096, and a next
call whose tick is not below the recorded one. A state that has them is unchanged. -/
def State.readyToFetch (s : State) : State :=
  { s with
    loaded := true
    fault := none
    wait := none
    pc := maskPc (s.pc &&& 0xFFFE#16)
    lastTick := if s.tickRegresses (s.tickOf s.nextArgs) then none else s.lastTick }

/-- The two bytes of a word, numbered as spec/opcode_table.json numbers it, stored big-endian at the pc (R72, R73). -/
def State.placeWord (s : State) (nbits w : Nat) : State :=
  let v : Word := BitVec.ofNat 16 (w % 2 ^ nbits)
  s.storeBytes s.pc.toNat [v.extractLsb' 8 8, v.extractLsb' 0 8]

end Sys2Proof.Machine
end

