-- ==== Sys2Proof/Machine/Step.lean ====
section
/-!
DEFINITION. One step of the machine: the spec's `step(keys, tick)` with the arguments of the host's next call (log 2).
-/

namespace Sys2Proof.Machine

/-- The engine answers the host's next call of `step` (R141). The call is consumed before the engine runs. -/
def step (s : State) : Host.Outcome State Fault Refusal := stepWith s.nextArgs s.popCall

/-- The state in which the very next step fetches and runs the word (log 12). -/
def State.withFetchWord (s : State) (nbits w : Nat) : State := s.readyToFetch.placeWord nbits w

end Sys2Proof.Machine
end

