-- ==== Sys2Proof/Machine/HostOps.lean ====
section
/-!
DEFINITION. The block's other operations: `load`, the debug accessors and `read_fb` (spec/60_exceptions.md R330 to
R337, spec/70_reset_and_hazards.md R360, R361). Each is one atomic transaction between steps (R4, R337).
-/

namespace Sys2Proof.Machine

/-! ## Load -/

/-- The bytes a program may have: 4096 - 0x200 (R9, R361). -/
def maxProgramBytes : Nat := 3584

/-- Memory after a successful load, in R360's order: residue, font, program. -/
def loadedMemory (cfg : Config) (p : List Byte) : Memory :=
  Memory.writeBytes (Memory.writeBytes (Memory.writeCells [] cfg.residue) 0 cfg.font.toList) 0x200 p

/-- The state after a successful load (R49, R360). The stack's slots are unspecified and unobservable there: zero
(DESIGN CHOICE, log 7). The oracle's counter, the host's coming calls and the parameters are not the engine's state. -/
def State.loadOk (s : State) (p : List Byte) : State where
  mem := loadedMemory s.cfg p
  V := Vector.replicate 16 0
  I := 0
  pc := 0x200
  stack := Vector.replicate 16 0
  sp := 0
  DT := 0
  ST := 0
  keys := 0
  fb := s.cfg.loadFb
  wait := none
  lastTick := none
  fault := none
  loaded := true
  prev := 0
  reply := none
  draws := s.draws
  calls := s.calls
  cfg := s.cfg

end Sys2Proof.Machine

namespace Sys2Proof

/-- The contents of the engine after the n-th unspecified event: a free value with no body (R361; log 11). -/
opaque Config.unspecifiedState : Nat → Machine.State

end Sys2Proof

namespace Sys2Proof.Machine

/-- A state brought to the ranges every state of the engine has (R50): memory in canonical form, pc below 4096, a
recorded tick of TICK_W bits. -/
def State.inRange (u : State) (tickW : Nat) : State :=
  { u with
    mem := Memory.writeCells [] u.mem
    pc := maskPc u.pc
    lastTick := u.lastTick.map (· % 2 ^ tickW) }

/-- An engine that holds no program: `loaded` is false and every other element is a free value (log 11), the one that
`draws` names. -/
def State.notLoaded (cfg : Config) (calls : List StepArgs) (draws : Nat) : State :=
  { (Config.unspecifiedState draws).inRange cfg.tickW with
    loaded := false
    draws := draws + 1
    calls := calls
    cfg := cfg }

/-- The state before any load: R45 gives `loaded` alone, which is false (D32; log 1). -/
def State.beforeLoad (cfg : Config) (calls : List StepArgs) : State := State.notLoaded cfg calls 0

/-- The state after a failed load: `loaded` is false and "every element other than loaded is unspecified" (R361). -/
def State.loadFailed (s : State) : State := State.notLoaded s.cfg s.calls s.draws

/-! ## Debug accessors (R332 to R336) -/

/-- `get_pc` (R332). -/
def State.getPc (s : State) : Word := s.pc

/-- `set_pc(v)` (R332): mod 4096; `wait` is untouched. -/
def State.debugSetPc (s : State) (v : Word) : State := s.setPc v

/-- `get_index` (R333): all 16 bits. -/
def State.getIndex (s : State) : Word := s.I

/-- `set_index(v)` (R333). -/
def State.debugSetIndex (s : State) (v : Word) : State := s.setIndex v

/-- `get_reg(i)` (R334): 0 outside 0..15. -/
def State.getReg (s : State) (i : Int) : Byte :=
  if 0 ≤ i ∧ i < 16 then s.reg (BitVec.ofNat 4 i.toNat) else 0

/-- `set_reg(i, v)` (R334): ignored outside 0..15. -/
def State.debugSetReg (s : State) (i : Int) (v : Byte) : State :=
  if 0 ≤ i ∧ i < 16 then s.setReg (BitVec.ofNat 4 i.toNat) v else s

/-- `get_mem(a)` (R335): 0 outside 0..4095; the address is not reduced. -/
def State.getMem (s : State) (a : Int) : Byte :=
  if 0 ≤ a ∧ a < 4096 then Memory.read s.mem a.toNat else 0

/-- `set_mem(a, v)` (R335): ignored outside 0..4095; the address is not reduced. -/
def State.debugSetMem (s : State) (a : Int) (v : Byte) : State :=
  if 0 ≤ a ∧ a < 4096 then { s with mem := Memory.write s.mem a.toNat v } else s

/-- `read_fb` (R336): a copy, read-only. -/
def State.readFb (s : State) : Framebuffer := s.fb

/-! ## Every transaction (R330) -/

/-- The operations of R330. -/
inductive HostOp where
  | load (program : List Byte)
  | step (args : StepArgs)
  | getPc
  | setPc (v : Word)
  | getIndex
  | setIndex (v : Word)
  | getReg (i : Int)
  | setReg (i : Int) (v : Byte)
  | getMem (a : Int)
  | setMem (a : Int) (v : Byte)
  | readFb
deriving DecidableEq, Repr

/-- What an operation answers (R330). -/
inductive HostReply where
  /-- done, with no value -/
  | done
  /-- `Err(ProgramTooLarge)` with the program's length (R300 code 5) -/
  | programTooLarge (length : Nat)
  /-- the result of a step -/
  | step (r : StepReply)
  /-- no step and no result: the host broke its contract (R338) -/
  | refused (r : Refusal)
  | word (v : Word)
  | byte (v : Byte)
  | grid (fb : Framebuffer)
deriving DecidableEq, Repr

/-! ## Fault codes (R300, D6) -/

/-- The codes of the step faults. -/
def FaultKind.code (k : FaultKind) : Nat :=
  match k with
  | .illegalInstruction => 1
  | .stackOverflow => 2
  | .stackUnderflow => 3
  | .misalignedFetch => 4

/-- The code of what the latch holds: 0 for no fault. -/
def State.faultCode (s : State) : Nat :=
  match s.fault with
  | none => 0
  | some k => k.code

/-- The code of the error an operation answers: 5 for the load error, 0 where the answer is none. A refusal is no
result and no kind of R300. -/
def HostReply.code (r : HostReply) : Nat :=
  match r with
  | .programTooLarge _ => 5
  | .step (.err f) => f.kind.code
  | .step (.ok _) => 0
  | .done | .refused _ | .word _ | .byte _ | .grid _ => 0

/-! ## Transactions -/

/-- `load(program)` (R360, R361). -/
def performLoad (p : List Byte) (s : State) : HostReply × State :=
  if maxProgramBytes < p.length then (.programTooLarge p.length, s.loadFailed) else (.done, s.loadOk p)

/-- `step(keys, tick)` as a transaction: its result and the state after it. A latched fault and a refusal change
nothing (R305, R338). -/
def performStep (a : StepArgs) (s : State) : HostReply × State :=
  match stepWith a s with
  | .next t => (match t.reply with
    | some r => .step r
    | none => .done, t)
  | .fault f => (.step (.err f), s)
  | .refused r => (.refused r, s)

/-- One transaction of the block (R330): its result and the state after it. -/
def perform (op : HostOp) (s : State) : HostReply × State :=
  match op with
  | .load p => performLoad p s
  | .step a => performStep a s
  | .getPc => (.word s.getPc, s)
  | .setPc v => (.done, s.debugSetPc v)
  | .getIndex => (.word s.getIndex, s)
  | .setIndex v => (.done, s.debugSetIndex v)
  | .getReg i => (.byte (s.getReg i), s)
  | .setReg i v => (.done, s.debugSetReg i v)
  | .getMem a => (.byte (s.getMem a), s)
  | .setMem a v => (.done, s.debugSetMem a v)
  | .readFb => (.grid s.readFb, s)

end Sys2Proof.Machine
end

