-- ==== Sys2Proof/Safety.lean ====
section
/-!
DEFINITION. The terms the statements are written in: the invariant of every state, what the guard lets through, what
the sequencer hands to an instruction, new keys, who writes VF, frames, sprite pixels, and a run without a fault.
-/

namespace Sys2Proof.Machine

/-! ## Invariants -/

/-- What holds after every transaction (spec/10_state.md R50), for the fields whose type does not already say it: the
memory is in canonical form, pc is below 4096, and a recorded tick has TICK_W bits (R43). The ranges of V, DT, ST, fb
and sp are their types. -/
def Inv (s : State) : Prop :=
  Memory.wf s.mem = true ∧ s.pc.toNat < 4096 ∧ ∀ t, s.lastTick = some t → t < 2 ^ s.cfg.tickW

/-- While the engine waits for a key into register r, pc is the address of that FX0A (R35, R265). -/
def WaitsAtFx0a (s : State) : Prop :=
  ∀ r, s.wait = some r → s.pc.toNat % 2 = 0 ∧ s.fetchWord = formatXNN 0xF#4 r 0x0A#8

/-! ## When a step does its work -/

/-- The guard lets the host's next call through: loaded, no latched fault, no tick regression (R141). -/
def Accepts (s : State) : Prop :=
  s.loaded = true ∧ s.fault = none ∧ s.tickRegresses (s.tickOf s.nextArgs) = false

/-- No wait is pending, pc is even, and the word there decodes to i. -/
def Fetches (s : State) (i : Instr) : Prop :=
  s.wait = none ∧ s.pc.toNat % 2 = 0 ∧ decode s.fetchWord = .ok i

/-- The state an instruction is executed in: the call consumed, the keys latched, pc moved on by 2 mod 4096
(R141, R142). -/
def State.entered (s : State) : State :=
  { s with
    calls := s.calls.tail
    prev := s.keys
    keys := s.nextArgs.keys
    pc := BitVec.ofNat 16 ((s.pc.toNat + 2) % 4096) }

/-- The ticks that pass in the next step (R320). -/
def State.elapsed (s : State) : Nat := s.tickDelta (s.tickOf s.nextArgs)

/-- Why a step takes a fault (R300): it is in no wait, and one of the four reasons holds. -/
def FaultsWith (s : State) (f : Fault) : Prop :=
  s.wait = none ∧
    ((f = .misalignedFetch s.pc ∧ s.pc.toNat % 2 = 1) ∨
     (f = .illegalInstruction s.pc s.fetchWord ∧ s.pc.toNat % 2 = 0 ∧ ∃ e, decode s.fetchWord = .error e) ∨
     (f = .stackOverflow s.entered.instrAddr ∧ s.sp.val = 16 ∧ ∃ nnn, Fetches s (.call nnn)) ∨
     (f = .stackUnderflow s.entered.instrAddr ∧ s.sp.val = 0 ∧ Fetches s .ret))

/-! ## Keys -/

/-- Key k is the lowest of the keys that are down in `keys` and were not down in `prev` (R262, R263). -/
def LowestNew (prev keys : Word) (k : Nat) : Prop :=
  k < 16 ∧ keys.getLsbD k = true ∧ prev.getLsbD k = false ∧
    ∀ j, j < k → ¬(keys.getLsbD j = true ∧ prev.getLsbD j = false)

/-! ## VF (R33) -/

/-- The instructions that write VF as a flag: 8XY0 to 8XY7, 8XYE and DXYN (R33). -/
def writesFlag (i : Instr) : Bool :=
  match i with
  | .ldReg _ _ | .or _ _ | .and _ _ | .xor _ _ | .addReg _ _ | .sub _ _ | .shr _ _ | .subn _ _ | .shl _ _ => true
  | .drw _ _ _ => true
  | .cls | .ret | .jp _ | .call _ | .seImm _ _ | .sneImm _ _ | .seReg _ _ | .ldImm _ _ | .addImm _ _ => false
  | .sneReg _ _ | .ldI _ | .jpV0 _ _ | .rnd _ _ | .skp _ | .sknp _ => false
  | .ldVxDt _ | .ldVxK _ | .ldDtVx _ | .ldStVx _ | .addIVx _ | .ldFVx _ | .ldBVx _ | .ldMemVx _ | .ldVxMem _ => false

/-- The destination field is 0xF, so VF is written as an ordinary register: 6FNN, 7FNN, CFNN, FF07, FF0A, and FX65
with x = 0xF (R33). -/
def writesVfAsRegister (i : Instr) : Bool :=
  match i with
  | .ldImm x _ | .addImm x _ | .rnd x _ | .ldVxDt x | .ldVxK x | .ldVxMem x => x == flagReg
  | .cls | .ret | .jp _ | .call _ | .seImm _ _ | .sneImm _ _ | .seReg _ _ | .sneReg _ _ | .ldI _ | .jpV0 _ _ => false
  | .ldReg _ _ | .or _ _ | .and _ _ | .xor _ _ | .addReg _ _ | .sub _ _ | .shr _ _ | .subn _ _ | .shl _ _ => false
  | .drw _ _ _ | .skp _ | .sknp _ => false
  | .ldDtVx _ | .ldStVx _ | .addIVx _ | .ldFVx _ | .ldBVx _ | .ldMemVx _ => false

/-! ## What load leaves (R49) -/

/-- `LOAD_RESIDUE[a]` as the parameter record holds it (log 5). -/
def residueByte (cfg : Config) (a : Nat) : Byte := Memory.read (Memory.writeCells [] cfg.residue) a

/-! ## Frames -/

/-- Everything but the registers named is as before: every other register, pc, memory, and every other field. -/
def RegsOnly (xs : List Reg) (s t : State) : Prop :=
  t = { s with V := t.V } ∧ ∀ r, r ∉ xs → t.reg r = s.reg r

/-- Nothing but pc may differ. -/
def PcOnly (s t : State) : Prop := t = { s with pc := t.pc }

/-- Nothing but the index register may differ. -/
def IndexOnly (s t : State) : Prop := t = { s with I := t.I }

/-! ## Sprites -/

/-- The sprite bit that DRW puts on the cell (row, col), or false where the sprite does not reach
(spec/42_drawing.md R241, R242): the cell is in sprite row (row - y0) mod 32 and sprite column (col - x0) mod 64. -/
def State.spriteBit (s : State) (x y : Reg) (n : BitVec 4) (row col : Nat) : Bool :=
  let x0 := (s.reg x).toNat % 64
  let y0 := (s.reg y).toNat % 32
  let r := (row + 32 - y0) % 32
  let c := (col + 64 - x0) % 64
  decide (r < n.toNat) && (s.cfg.drawWrapVertical || decide (y0 + r < 32)) && decide (c < 8) &&
    (s.load8 (s.I.toNat + r)).getLsbD (7 - c)

/-! ## Safe runs -/

/-- A run of k steps that stops nowhere and takes no fault: the engine is still live at its end (R305, R341). -/
def LiveRun (k : Nat) (s : State) : Prop := ∃ t, core.run k s = .next t ∧ t.fault = none

end Sys2Proof.Machine
end

