-- ==== Sys2Proof/Certificates/Slice0/Obligations.lean ====
section
/-!
DEFINITION. The statements about the engine, one per entry of OBLIGATIONS.json. `exec i s` is stated in the state the
sequencer hands to an instruction: keys latched, pc already the instruction's address plus 2 (R141, R142). A frame is an
equation: `t = { s with f := t.f }` says that every field but f, so every byte of memory too, is as before.
-/

open Sys2Proof Sys2Proof.Machine

/-! ## Reset and load -/

/-- R49: the reset state is the loaded state of the empty program, with the standard parameters. The zeros of the
framebuffer and of the residue bytes are the model's choice (logs 5, 6) and are not stated here. -/
def Obligations.ResetIsTheLoadedState : Prop :=
  perform (.load []) State.reset = (.done, State.reset) ∧
  State.reset.pc.toNat = 0x200 ∧ State.reset.sp.val = 0 ∧ State.reset.DT = 0 ∧ State.reset.ST = 0 ∧
  (∀ r : Reg, State.reset.reg r = 0) ∧ State.reset.I = 0 ∧ State.reset.keys = 0 ∧
  State.reset.wait = none ∧ State.reset.lastTick = none ∧ State.reset.fault = none ∧ State.reset.loaded = true ∧
  (∀ k, ∀ h : k < 80, State.reset.load8 k = State.reset.cfg.font[k])

/-- R360, R49: what a successful load leaves, for every program that fits and every value of the parameters. -/
def Obligations.LoadInstallsFontAndProgram : Prop :=
  ∀ (p : List Byte) (s : State), p.length ≤ 3584 →
    ∃ t, perform (.load p) s = (.done, t) ∧
      (∀ k, ∀ h : k < 80, t.load8 k = s.cfg.font[k]) ∧
      (∀ k, ∀ h : k < p.length, t.load8 (0x200 + k) = p[k]) ∧
      (∀ a, 80 ≤ a → a < 4096 → (a < 0x200 ∨ 0x200 + p.length ≤ a) → t.load8 a = residueByte s.cfg a) ∧
      t.pc.toNat = 0x200 ∧ t.sp.val = 0 ∧ t.DT = 0 ∧ t.ST = 0 ∧ (∀ r : Reg, t.reg r = 0) ∧ t.I = 0 ∧
      t.keys = 0 ∧ t.fb = s.cfg.loadFb ∧ t.wait = none ∧ t.lastTick = none ∧ t.fault = none ∧ t.loaded = true

/-- R361 (D32): a program over 3584 bytes does not load; the state is not loaded and no step of it is given. What else
the failed load leaves is a free value (log 11): the statement holds for every one. -/
def Obligations.LoadOfTooLongProgramFails : Prop :=
  ∀ (p : List Byte) (s : State), 3584 < p.length →
    ∃ t, perform (.load p) s = (.programTooLarge p.length, t) ∧ t.loaded = false ∧
      ∀ a : StepArgs, perform (.step a) t = (.refused .unloaded, t)

/-- R50: the invariant and the wait invariant hold in the reset state. -/
def Obligations.ResetMeetsTheInvariants : Prop := Inv State.reset ∧ WaitsAtFx0a State.reset

/-- R45 (D32): `loaded` is false before any load, true after one that succeeds, false after one that fails, and every
other operation keeps it; while it is false, step is refused and changes nothing. What else the engine holds before any
load is a free value (logs 1, 11): the statement holds for every one. -/
def Obligations.LoadedSaysWhetherStepsRun : Prop :=
  (∀ (cfg : Config) (calls : List StepArgs),
    (State.beforeLoad cfg calls).loaded = false ∧ Inv (State.beforeLoad cfg calls)) ∧
  (∀ (p : List Byte) (s : State), (perform (.load p) s).2.loaded = true ↔ p.length ≤ 3584) ∧
  (∀ (op : HostOp) (s : State), (∀ p, op ≠ .load p) → (perform op s).2.loaded = s.loaded) ∧
  (∀ s : State, s.loaded = false →
    step s = .refused .unloaded ∧ ∀ a : StepArgs, perform (.step a) s = (.refused .unloaded, s))

/-! ## Invariants -/

/-- R50, R34: every step keeps the memory's canonical form, pc below 4096 and the recorded tick in TICK_W bits. -/
def Obligations.StepKeepsTheInvariant : Prop :=
  ∀ s t : State, Inv s → step s = .next t → Inv t

/-- R50: so does every transaction of the block, a failed load among them. -/
def Obligations.EveryTransactionKeepsTheInvariant : Prop :=
  ∀ (op : HostOp) (s : State), Inv s → Inv (perform op s).2

/-- R265, R35: while the engine waits for a key, pc is the address of the waiting FX0A; every step keeps this. -/
def Obligations.StepKeepsPcAtTheWaitingFx0a : Prop :=
  ∀ s t : State, WaitsAtFx0a s → step s = .next t → WaitsAtFx0a t

/-! ## Encoding -/

/-- R110, R112: decoding the word of a well-formed instruction gives it back, every operand at every value. -/
def Obligations.DecodeOfEncodeIsTheInstruction : Prop :=
  ∀ i : Instr, i.wf = true → decode (encode i) = .ok i ∧ decodeBytes (encodeBytes i) = .ok (i, [])

/-- R107, R112: a decoded instruction is well-formed and its word is the one decoded, but for the low nibble that
families 5 and 9 ignore (log 14: the encoder writes 0 there). -/
def Obligations.EncodeOfDecodeIsTheWord : Prop :=
  ∀ (w : Word) (i : Instr), decode w = .ok i →
    i.wf = true ∧
    (famOf w ≠ 5 → famOf w ≠ 9 → encode i = w) ∧
    (famOf w = 5 ∨ famOf w = 9 → encode i = w &&& 0xFFF0#16)

/-- R104: every word either decodes to an instruction whose row it fits, and fits no other row of the table, or is
illegal and fits no row. -/
def Obligations.EveryWordIsOneInstructionOrIllegal : Prop :=
  ∀ w : Word,
    (∃ i, decode w = .ok i ∧ (rowOf i).fits w = true ∧ ∀ j : Instr, (rowOf j).fits w = true → rowOf j = rowOf i) ∨
    ((∃ e, decode w = .error e) ∧ ∀ i : Instr, (rowOf i).fits w = false)

/-- R108 (D7, D10): the illegal words, family by family. -/
def Obligations.IllegalWordsAreTheListedOnes : Prop :=
  ∀ w : Word, (∃ e, decode w = .error e) ↔
    (famOf w = 0x0 ∧ nnnOf w ≠ 0x0E0 ∧ nnnOf w ≠ 0x0EE) ∨
    (famOf w = 0x8 ∧ (nOf w = 0x8 ∨ nOf w = 0x9 ∨ nOf w = 0xA ∨ nOf w = 0xB ∨ nOf w = 0xC ∨ nOf w = 0xD ∨ nOf w = 0xF)) ∨
    (famOf w = 0xE ∧ nnOf w ≠ 0x9E ∧ nnOf w ≠ 0xA1) ∨
    (famOf w = 0xF ∧ nnOf w ≠ 0x07 ∧ nnOf w ≠ 0x0A ∧ nnOf w ≠ 0x15 ∧ nnOf w ≠ 0x18 ∧ nnOf w ≠ 0x1E ∧
      nnOf w ≠ 0x29 ∧ nnOf w ≠ 0x33 ∧ nnOf w ≠ 0x55 ∧ nnOf w ≠ 0x65)

/-- Words that spec/95_test_vectors.md writes out, one or more of each family of the table (R110, R112). -/
def Obligations.WordsOfTheSpecDecode : Prop :=
  decode 0x00E0 = .ok .cls ∧ decode 0x00EE = .ok .ret ∧ decode 0x1204 = .ok (.jp 0x204) ∧
  decode 0x2210 = .ok (.call 0x210) ∧ decode 0x3310 = .ok (.seImm 3 0x10) ∧ decode 0x4310 = .ok (.sneImm 3 0x10) ∧
  decode 0x5121 = .ok (.seReg 1 2) ∧ decode 0x7A01 = .ok (.addImm 10 0x01) ∧ decode 0x9120 = .ok (.sneReg 1 2) ∧
  decode 0x60FE = .ok (.ldImm 0 0xFE) ∧ decode 0x8014 = .ok (.addReg 0 1) ∧ decode 0x801E = .ok (.shl 0 1) ∧
  decode 0xA300 = .ok (.ldI 0x300) ∧ decode 0xB210 = .ok (.jpV0 2 0x210) ∧ decode 0xC00F = .ok (.rnd 0 0x0F) ∧
  decode 0xD125 = .ok (.drw 1 2 5) ∧ decode 0xE09E = .ok (.skp 0) ∧ decode 0xF30A = .ok (.ldVxK 3) ∧
  decode 0xF018 = .ok (.ldStVx 0) ∧ decode 0xF265 = .ok (.ldVxMem 2)

/-- R72: the fetched word has the byte at pc in bits 15 to 8 and the byte at pc + 1 in bits 7 to 0. -/
def Obligations.InstructionWordsAreBigEndian : Prop :=
  ∀ s : State, s.pc.toNat < 4095 →
    (s.fetchWord.extractLsb' 8 8 = Memory.read s.mem s.pc.toNat) ∧
    (s.fetchWord.extractLsb' 0 8 = Memory.read s.mem (s.pc.toNat + 1))

/-! ## The step -/

/-- R141, R142, R304: a step of a ready engine executes the decoded instruction in the entered state. Its next state is
finished (sound sample, decay); its fault is taken on the state from before the step. -/
def Obligations.StepRunsTheDecodedInstruction : Prop :=
  ∀ (s : State) (i : Instr), Accepts s → Fetches s i →
    step s =
      (match exec i s.entered with
      | .next t => .next (t.finish (s.tickOf s.nextArgs))
      | .fault f => .next (s.popCall.takeFault f)
      | .refused r => .refused r)

/-- R143, R308 (D5): with an odd pc the fetch faults before anything is decoded; the next state is the old one with
the latch set and the pc recorded. -/
def Obligations.OddPcFaultsAtTheFetch : Prop :=
  ∀ s : State, Accepts s → s.wait = none → s.pc.toNat % 2 = 1 →
    step s = .next { s with calls := s.calls.tail, fault := some .misalignedFetch, reply := some (.err (.misalignedFetch s.pc)) }

/-- R301, R304 (D3): an illegal word faults with its address and itself, leaves pc where it is, and stops the engine:
the next step answers the latched fault. -/
def Obligations.IllegalWordFaultsAndStops : Prop :=
  ∀ (s : State) (e : IllegalWord), Accepts s → s.wait = none → s.pc.toNat % 2 = 0 → decode s.fetchWord = .error e →
    ∃ t, step s = .next t ∧
      t = { s with calls := s.calls.tail, fault := some .illegalInstruction,
                   reply := some (.err (.illegalInstruction s.pc s.fetchWord)) } ∧
      step t = .fault (.latched .illegalInstruction)

/-- R304, R308 (D3): a faulting step commits nothing but the latch (and the model's own output and call list), and it
faults for exactly one of the four reasons, none of them during a wait. -/
def Obligations.FaultingStepCommitsNothing : Prop :=
  ∀ (s t : State) (k : FaultKind), Inv s → step s = .next t → t.fault = some k →
    s.wait = none ∧
    ∃ f : Fault, f.kind = k ∧ t = { s with calls := s.calls.tail, fault := some k, reply := some (.err f) } ∧
      ((f = .misalignedFetch s.pc ∧ s.pc.toNat % 2 = 1) ∨
       (f = .illegalInstruction s.pc s.fetchWord ∧ s.pc.toNat % 2 = 0 ∧ ∃ e, decode s.fetchWord = .error e) ∨
       (f = .stackOverflow s.pc ∧ s.sp.val = 16 ∧ ∃ nnn, Fetches s (.call nnn)) ∨
       (f = .stackUnderflow s.pc ∧ s.sp.val = 0 ∧ Fetches s .ret))

/-- R305 (D4): with the latch set every step answers the latched kind and changes nothing; a load that fits clears it. -/
def Obligations.FaultLatchHoldsUntilLoad : Prop :=
  ∀ (s : State) (k : FaultKind), s.loaded = true → s.fault = some k →
    (∀ a : StepArgs, perform (.step a) s = (.step (.err (.latched k)), s)) ∧
    ∀ p : List Byte, p.length ≤ 3584 → ∃ t, perform (.load p) s = (.done, t) ∧ t.fault = none

/-- R338, R305 (D4, D25, D32): when a step answers no next state: exactly the two refusals, and the latched fault. -/
def Obligations.StepStopsExactlyWhereTheGuardSays : Prop :=
  ∀ s : State,
    (∀ r : Refusal, step s = .refused r ↔
      (r = .unloaded ∧ s.loaded = false) ∨
      (r = .tickRegression ∧ s.loaded = true ∧ s.fault = none ∧
        ∃ t0, s.lastTick = some t0 ∧ s.nextArgs.tick % 2 ^ s.cfg.tickW < t0)) ∧
    (∀ f : Fault, step s = .fault f ↔ s.loaded = true ∧ ∃ k, s.fault = some k ∧ f = .latched k)

/-- R40, R43, R320 (D23, D24): a step without a fault latches its key mask, keeps the old one as `prev`, records its
tick, which is not below the one before, consumes one call, and writes no parameter. -/
def Obligations.StepLatchesItsArguments : Prop :=
  ∀ s t : State, step s = .next t → t.fault = none →
    t.keys = s.nextArgs.keys ∧ t.prev = s.keys ∧ t.lastTick = some (s.nextArgs.tick % 2 ^ s.cfg.tickW) ∧
    (∀ t0, s.lastTick = some t0 → t0 ≤ s.nextArgs.tick % 2 ^ s.cfg.tickW) ∧
    t.calls = s.calls.tail ∧ t.cfg = s.cfg ∧ t.loaded = true

/-- R320, R321, R39 (D24): in a step without a fault each timer falls by min(timer, elapsed ticks), whatever
instruction or wait phase runs, unless that instruction writes the timer. -/
def Obligations.TimersFallByTheElapsedTicks : Prop :=
  ∀ s t : State, step s = .next t → t.fault = none →
    ((∀ x, ¬Fetches s (.ldDtVx x)) → t.DT.toNat = s.DT.toNat - min s.DT.toNat s.elapsed) ∧
    ((∀ x, ¬Fetches s (.ldStVx x)) → t.ST.toNat = s.ST.toNat - min s.ST.toNat s.elapsed)

/-- R322: each non-faulting step returns sound_on = (ST > 1), sampled after an FX18 of the same step and before the
step's own decay. -/
def Obligations.SoundIsSampledBeforeTheDecay : Prop :=
  ∀ s t : State, step s = .next t → t.fault = none →
    (∀ x, Fetches s (.ldStVx x) → t.reply = some (.ok (decide ((s.reg x).toNat > 1)))) ∧
    ((∀ x, ¬Fetches s (.ldStVx x)) → t.reply = some (.ok (decide (s.ST.toNat > 1))))

/-- R281, R282: FX15 and FX18 write a register's value into a timer; the same step samples the sound at the written
value and then decays it by the whole tick delta. -/
def Obligations.TimerWritesAreSampledThenDecay : Prop :=
  ∀ x : Reg,
    decode (formatXNN 0xF x 0x15) = .ok (.ldDtVx x) ∧ decode (formatXNN 0xF x 0x18) = .ok (.ldStVx x) ∧
    (∀ s, exec (.ldDtVx x) s = .next { s with DT := s.reg x }) ∧
    (∀ s, exec (.ldStVx x) s = .next { s with ST := s.reg x }) ∧
    (∀ s, Accepts s → Fetches s (.ldDtVx x) →
      ∃ t, step s = .next t ∧ t.DT.toNat = (s.reg x).toNat - min (s.reg x).toNat s.elapsed) ∧
    (∀ s, Accepts s → Fetches s (.ldStVx x) →
      ∃ t, step s = .next t ∧ t.reply = some (.ok (decide ((s.reg x).toNat > 1))) ∧
        t.ST.toNat = (s.reg x).toNat - min (s.reg x).toNat s.elapsed)

/-- R263 (D22, D23): the wait phase fetches nothing. On a key that went down it stores the lowest such key, ends the
wait and moves pc on by 2; otherwise only the inputs, the timers and the output change. -/
def Obligations.WaitPhaseCompletesOnlyOnANewKey : Prop :=
  ∀ (s : State) (r : Reg), Accepts s → s.wait = some r →
    (∀ k, LowestNew s.keys s.nextArgs.keys k →
      ∃ t, step s = .next t ∧ (t.reg r).toNat = k ∧ (∀ q, q ≠ r → t.reg q = s.reg q) ∧
        t.pc.toNat = (s.pc.toNat + 2) % 4096 ∧
        t = { s with V := t.V, pc := t.pc, wait := none, keys := s.nextArgs.keys, prev := s.keys,
                     DT := t.DT, ST := t.ST, lastTick := t.lastTick, reply := t.reply, calls := s.calls.tail }) ∧
    ((∀ k, ¬LowestNew s.keys s.nextArgs.keys k) →
      ∃ t, step s = .next t ∧
        t = { s with keys := s.nextArgs.keys, prev := s.keys,
                     DT := t.DT, ST := t.ST, lastTick := t.lastTick, reply := t.reply, calls := s.calls.tail })

/-- R300 (D5, D6; the codes are the spec's own choice): 0 is no fault, 1 to 4 are the kinds of step fault, 5 is the load
error alone; the code a step answers with an error is that of the latch after it. -/
def Obligations.FaultCodesFollowTheTable : Prop :=
  (∀ s : State, (s.faultCode = 0 ↔ s.fault = none) ∧ (s.faultCode = 1 ↔ s.fault = some .illegalInstruction) ∧
    (s.faultCode = 2 ↔ s.fault = some .stackOverflow) ∧ (s.faultCode = 3 ↔ s.fault = some .stackUnderflow) ∧
    (s.faultCode = 4 ↔ s.fault = some .misalignedFetch)) ∧
  (∀ (p : List Byte) (s : State), (perform (.load p) s).1.code = if 3584 < p.length then 5 else 0) ∧
  (∀ (a : StepArgs) (s t : State) (f : Fault), perform (.step a) s = (.step (.err f), t) →
    f.kind.code = t.faultCode ∧ 1 ≤ t.faultCode ∧ t.faultCode ≤ 4)

/-! ## Rules about the whole machine -/

/-- R33, with the flag values of R182 to R190 and R241 and the write order of R199 (D12: the flag wins when x = 0xF): an
instruction that writes VF as a flag leaves 0 or 1 in it; one that does not, and does not have 0xF in its destination
field, leaves VF unchanged. -/
def Obligations.VfIsWrittenOnlyByItsWriters : Prop :=
  ∀ (i : Instr) (s t : State), exec i s = .next t →
    (writesFlag i = true → (t.reg 15#4).toNat ≤ 1) ∧
    (writesFlag i = false → writesVfAsRegister i = false → t.reg 15#4 = s.reg 15#4)

/-- R326, R336: a step that changes the framebuffer executes CLS or DXYN; no accessor writes it; read_fb gives the
whole grid and changes nothing. -/
def Obligations.FramebufferIsWrittenOnlyByClsAndDrw : Prop :=
  (∀ s t : State, step s = .next t → t.fb ≠ s.fb → Fetches s .cls ∨ ∃ x y n, Fetches s (.drw x y n)) ∧
  (∀ (op : HostOp) (s : State), (∀ p, op ≠ .load p) → (∀ a, op ≠ .step a) → (perform op s).2.fb = s.fb) ∧
  (∀ s : State, perform .readFb s = (.grid s.fb, s))

/-- R38, R47: a step that changes the call stack or its pointer executes CALL or RET. -/
def Obligations.StackIsMovedOnlyByCallAndRet : Prop :=
  ∀ s t : State, step s = .next t → (t.stack ≠ s.stack ∨ t.sp ≠ s.sp) →
    Fetches s .ret ∨ ∃ nnn, Fetches s (.call nnn)

/-- R71, R77: a step that changes memory executes FX55 or FX33. -/
def Obligations.MemoryIsWrittenOnlyByStores : Prop :=
  ∀ s t : State, step s = .next t → t.mem ≠ s.mem →
    ∃ x, Fetches s (.ldMemVx x) ∨ Fetches s (.ldBVx x)

/-- R84, R371 (D35): bytes that FX55 stored are what the next fetch at their address reads. -/
def Obligations.StoresAreSeenByTheNextFetch : Prop :=
  ∀ (x : Reg) (s t u : State), Memory.wf s.mem = true → 1 ≤ x.toNat → exec (.ldMemVx x) s = .next t →
    u.mem = t.mem → u.pc.toNat = s.I.toNat % 4096 →
    u.fetchWord = wordOfBytes (s.reg 0) (s.reg 1)

/-! ## Control flow -/

/-- R150 (D2, D3): with room on the stack CALL pushes pc (the instruction's address plus 2), leaves every other slot
and jumps; on a full stack it faults with its own address. -/
def Obligations.CallPushesTheReturnAddress : Prop :=
  ∀ (nnn : Addr) (s : State),
    (s.sp.val < 16 →
      ∃ t, exec (.call nnn) s = .next t ∧ t.sp.val = s.sp.val + 1 ∧
        t.stack[s.sp.val]? = some (s.pc.setWidth 12) ∧ (∀ j, j ≠ s.sp.val → t.stack[j]? = s.stack[j]?) ∧
        t.pc.toNat = nnn.toNat ∧ t = { s with stack := t.stack, sp := t.sp, pc := t.pc }) ∧
    (s.sp.val = 16 →
      exec (.call nnn) s = .fault (.stackOverflow (BitVec.ofNat 16 ((s.pc.toNat + 65534) % 4096))))

/-- R151 (D3): RET jumps to the top entry and leaves the slots as they are; on an empty stack it faults with its own
address. -/
def Obligations.RetPopsTheTopEntry : Prop :=
  ∀ s : State,
    (∀ a, 0 < s.sp.val → s.stack[s.sp.val - 1]? = some a →
      ∃ t, exec .ret s = .next t ∧ t.sp.val + 1 = s.sp.val ∧ t.pc.toNat = a.toNat ∧
        t = { s with sp := t.sp, pc := t.pc }) ∧
    (s.sp.val = 0 →
      exec .ret s = .fault (.stackUnderflow (BitVec.ofNat 16 ((s.pc.toNat + 65534) % 4096))))

/-- R142, R150, R151 (D2): a RET executed with the stack as a CALL left it resumes at the address after the CALL, with
the stack pointer from before it. -/
def Obligations.RetResumesAfterTheCall : Prop :=
  ∀ (nnn : Addr) (s t u : State), exec (.call nnn) s = .next t → u.stack = t.stack → u.sp = t.sp →
    ∃ v, exec .ret u = .next v ∧ v.pc.toNat = s.pc.toNat % 4096 ∧ v.sp = s.sp

/-- R152: JP nnn sets pc to nnn and changes nothing else. -/
def Obligations.JpSetsPcToTheTarget : Prop :=
  ∀ nnn : Addr, decode (formatA 0x1 nnn) = .ok (.jp nnn) ∧
    ∀ s, ∃ t, exec (.jp nnn) s = .next t ∧ t.pc.toNat = nnn.toNat ∧ PcOnly s t

/-- R153 (D9, general knowledge): BNNN adds V0, or V[x] when JUMP_B_USES_VX, and masks the sum. -/
def Obligations.JpV0AddsTheOffsetRegister : Prop :=
  ∀ (x : Reg) (nnn : Addr) (s : State),
    ∃ t, exec (.jpV0 x nnn) s = .next t ∧ PcOnly s t ∧
      t.pc.toNat = (nnn.toNat + (s.reg (if s.cfg.jumpBUsesVx then x else 0)).toNat) % 4096

/-- R155, R156; which family tests which way is general knowledge (R154, D10; log 16): 3XNN skips on equal, 4XNN on not
equal; a skip adds 2 to pc mod 4096; nothing else changes. -/
def Obligations.ImmediateSkipsCompareWithTheByte : Prop :=
  ∀ (x : Reg) (nn : Byte),
    decode (formatXNN 0x3 x nn) = .ok (.seImm x nn) ∧ decode (formatXNN 0x4 x nn) = .ok (.sneImm x nn) ∧
    ∀ s, ∃ t u, exec (.seImm x nn) s = .next t ∧ exec (.sneImm x nn) s = .next u ∧ PcOnly s t ∧ PcOnly s u ∧
      (s.reg x = nn → t.pc.toNat = (s.pc.toNat + 2) % 4096 ∧ u.pc = s.pc) ∧
      (s.reg x ≠ nn → t.pc = s.pc ∧ u.pc.toNat = (s.pc.toNat + 2) % 4096)

/-- R157, R158, R107 (D8); which family tests which way is general knowledge (R154, D10; log 16): 5XYN skips on equal
registers and 9XYN on different ones, for every n. -/
def Obligations.RegisterSkipsIgnoreTheLowNibble : Prop :=
  ∀ (x y : Reg) (n : BitVec 4),
    decode (formatXYN 0x5 x y n) = .ok (.seReg x y) ∧ decode (formatXYN 0x9 x y n) = .ok (.sneReg x y) ∧
    ∀ s, ∃ t u, exec (.seReg x y) s = .next t ∧ exec (.sneReg x y) s = .next u ∧ PcOnly s t ∧ PcOnly s u ∧
      (s.reg x = s.reg y → t.pc.toNat = (s.pc.toNat + 2) % 4096 ∧ u.pc = s.pc) ∧
      (s.reg x ≠ s.reg y → t.pc = s.pc ∧ u.pc.toNat = (s.pc.toNat + 2) % 4096)

/-! ## Arithmetic and data -/

/-- R180: LD Vx, nn writes nn to Vx and nothing else. -/
def Obligations.LdImmWritesTheByte : Prop :=
  ∀ (x : Reg) (nn : Byte), decode (formatXNN 0x6 x nn) = .ok (.ldImm x nn) ∧
    ∀ s, ∃ t, exec (.ldImm x nn) s = .next t ∧ t.reg x = nn ∧ RegsOnly [x] s t

/-- R181: ADD Vx, nn adds mod 256 and writes no flag. -/
def Obligations.AddImmWrapsAndLeavesVf : Prop :=
  ∀ (x : Reg) (nn : Byte), decode (formatXNN 0x7 x nn) = .ok (.addImm x nn) ∧
    ∀ s, ∃ t, exec (.addImm x nn) s = .next t ∧ (t.reg x).toNat = ((s.reg x).toNat + nn.toNat) % 256 ∧
      RegsOnly [x] s t

/-- R182, R199 (D12): LD Vx, Vy copies Vy, then clears VF. -/
def Obligations.LdRegCopiesAndClearsVf : Prop :=
  ∀ (x y : Reg) (s : State), ∃ t, exec (.ldReg x y) s = .next t ∧ t.reg 15#4 = 0 ∧
    (x ≠ 15#4 → t.reg x = s.reg y) ∧ RegsOnly [x, 15#4] s t

/-- R183, R184, R185: OR, AND and XOR bit by bit, then VF <- 0. -/
def Obligations.LogicOpsClearVf : Prop :=
  ∀ x y : Reg,
    decode (formatXYN 0x8 x y 0x1) = .ok (.or x y) ∧ decode (formatXYN 0x8 x y 0x2) = .ok (.and x y) ∧
    decode (formatXYN 0x8 x y 0x3) = .ok (.xor x y) ∧
    ∀ s, ∃ t u v, exec (.or x y) s = .next t ∧ exec (.and x y) s = .next u ∧ exec (.xor x y) s = .next v ∧
      t.reg 15#4 = 0 ∧ u.reg 15#4 = 0 ∧ v.reg 15#4 = 0 ∧
      (x ≠ 15#4 → ∀ k, k < 8 →
        (t.reg x).getLsbD k = ((s.reg x).getLsbD k || (s.reg y).getLsbD k) ∧
        (u.reg x).getLsbD k = ((s.reg x).getLsbD k && (s.reg y).getLsbD k) ∧
        (v.reg x).getLsbD k = ((s.reg x).getLsbD k ^^ (s.reg y).getLsbD k)) ∧
      RegsOnly [x, 15#4] s t ∧ RegsOnly [x, 15#4] s u ∧ RegsOnly [x, 15#4] s v

/-- R186, R199 (D12): the sum mod 256, then VF <- 1 exactly if the sum exceeds 255. -/
def Obligations.AddRegSetsTheCarry : Prop :=
  ∀ (x y : Reg) (s : State), ∃ t, exec (.addReg x y) s = .next t ∧
    (t.reg 15#4).toNat = (if (s.reg x).toNat + (s.reg y).toNat > 255 then 1 else 0) ∧
    (x ≠ 15#4 → (t.reg x).toNat = ((s.reg x).toNat + (s.reg y).toNat) % 256) ∧ RegsOnly [x, 15#4] s t

/-- R187, R189, R199 (D12): the difference mod 256, then VF <- 1 exactly if there is no borrow. -/
def Obligations.SubtractionsSetNoBorrow : Prop :=
  ∀ (x y : Reg) (s : State), ∃ t u, exec (.sub x y) s = .next t ∧ exec (.subn x y) s = .next u ∧
    (t.reg 15#4).toNat = (if (s.reg x).toNat ≥ (s.reg y).toNat then 1 else 0) ∧
    (u.reg 15#4).toNat = (if (s.reg y).toNat ≥ (s.reg x).toNat then 1 else 0) ∧
    (x ≠ 15#4 → (t.reg x).toNat = ((s.reg x).toNat + 256 - (s.reg y).toNat) % 256 ∧
      (u.reg x).toNat = ((s.reg y).toNat + 256 - (s.reg x).toNat) % 256) ∧
    RegsOnly [x, 15#4] s t ∧ RegsOnly [x, 15#4] s u

/-- R188, R190, R199 (D11, D12): shifts of Vx or Vy by SHIFT_SOURCE; VF <- the bit shifted out. -/
def Obligations.ShiftsSetTheBitShiftedOut : Prop :=
  ∀ (x y : Reg) (s : State) (v : Byte), v = (if s.cfg.shiftSource = .vx then s.reg x else s.reg y) →
    ∃ t u, exec (.shr x y) s = .next t ∧ exec (.shl x y) s = .next u ∧
      (t.reg 15#4).toNat = v.toNat % 2 ∧ (u.reg 15#4).toNat = v.toNat / 128 ∧
      (x ≠ 15#4 → (t.reg x).toNat = v.toNat / 2 ∧ (u.reg x).toNat = v.toNat * 2 % 256) ∧
      RegsOnly [x, 15#4] s t ∧ RegsOnly [x, 15#4] s u

/-- R193 (D29): one draw of the oracle, masked with nn. The draw is a free value (log 4): the statement holds for every
one; with nn = 0 the register is 0 whatever the draw. -/
def Obligations.RndMasksOneDraw : Prop :=
  ∀ (x : Reg) (nn : Byte) (s : State), ∃ t, exec (.rnd x nn) s = .next t ∧
    t.reg x = Config.randomByte s.draws &&& nn ∧ (nn = 0 → t.reg x = 0) ∧
    t.draws = s.draws + 1 ∧ RegsOnly [x] { s with draws := t.draws } t

/-- R191: LD I, nnn sets I to nnn and changes nothing else. -/
def Obligations.LdIWritesTheAddress : Prop :=
  ∀ nnn : Addr, decode (formatA 0xA nnn) = .ok (.ldI nnn) ∧
    ∀ s, ∃ t, exec (.ldI nnn) s = .next t ∧ t.I.toNat = nnn.toNat ∧ IndexOnly s t

/-- R192, R197 (D13, D16, D38, general knowledge): FX1E adds mod 65536 without a flag; FX29 takes the glyph address of
the low digit. -/
def Obligations.IndexArithmetic : Prop :=
  ∀ (x : Reg) (s : State), ∃ t u, exec (.addIVx x) s = .next t ∧ exec (.ldFVx x) s = .next u ∧
    t.I.toNat = (s.I.toNat + (s.reg x).toNat) % 65536 ∧ u.I.toNat = 5 * ((s.reg x).toNat % 16) ∧
    IndexOnly s t ∧ IndexOnly s u

/-- R194, R75 (D14, D34): FX55 stores V0..Vx at I, I + 1, ... mod 4096, leaves every other byte, and moves I past
them. The distance of an address from I says which register it gets. -/
def Obligations.StoreRegsWritesUpToVx : Prop :=
  ∀ (x : Reg) (s : State), Memory.wf s.mem = true →
    ∃ t, exec (.ldMemVx x) s = .next t ∧ t.I.toNat = (s.I.toNat + x.toNat + 1) % 65536 ∧
      t = { s with mem := t.mem, I := t.I } ∧
      (∀ k : Reg, k.toNat ≤ x.toNat → t.load8 (s.I.toNat + k.toNat) = s.reg k) ∧
      (∀ a, a < 4096 → x.toNat < (a + 4096 - s.I.toNat % 4096) % 4096 → t.load8 a = s.load8 a)

/-- R195, R75 (D14, D34): FX65 loads V0..Vx from I, I + 1, ... mod 4096 and moves I past them; memory and the other
registers are unchanged. -/
def Obligations.LoadRegsReadsUpToVx : Prop :=
  ∀ (x : Reg) (s : State),
    ∃ t, exec (.ldVxMem x) s = .next t ∧ t.I.toNat = (s.I.toNat + x.toNat + 1) % 65536 ∧
      t = { s with V := t.V, I := t.I } ∧
      (∀ k : Reg, k.toNat ≤ x.toNat → t.reg k = Memory.read s.mem ((s.I.toNat + k.toNat) % 4096)) ∧
      (∀ k : Reg, x.toNat < k.toNat → t.reg k = s.reg k)

/-- R196, R75 (D14, D33, general knowledge): FX33 stores hundreds, tens and ones at I, I + 1 and I + 2 mod 4096 and
leaves every other byte. -/
def Obligations.BcdStoresThreeDigits : Prop :=
  ∀ (x : Reg) (s : State), Memory.wf s.mem = true →
    ∃ t, exec (.ldBVx x) s = .next t ∧ t = { s with mem := t.mem } ∧
      (t.load8 s.I.toNat).toNat = (s.reg x).toNat / 100 ∧
      (t.load8 (s.I.toNat + 1)).toNat = (s.reg x).toNat / 10 % 10 ∧
      (t.load8 (s.I.toNat + 2)).toNat = (s.reg x).toNat % 10 ∧
      (∀ a, a < 4096 → 3 ≤ (a + 4096 - s.I.toNat % 4096) % 4096 → t.load8 a = s.load8 a)

/-! ## Drawing -/

/-- R240: CLS resets every cell and changes nothing else. -/
def Obligations.ClsBlanksEveryCell : Prop :=
  decode 0x00E0 = .ok .cls ∧
  ∀ s : State, ∃ t, exec .cls s = .next t ∧ t = { s with fb := t.fb } ∧
    ∀ row col, row < 32 → col < 64 → cell t.fb row col = false

/-- R241, R242, R243 (D14, D18, D19, D20): DRW inverts exactly the cells its sprite has a bit on, and VF says whether
one of them was lit. -/
def Obligations.DrwInvertsTheSpriteCells : Prop :=
  ∀ (x y : Reg) (n : BitVec 4) (s : State),
    ∃ t, exec (.drw x y n) s = .next t ∧ t = { s with fb := t.fb, V := t.V } ∧
      (∀ row col, row < 32 → col < 64 → cell t.fb row col = (cell s.fb row col ^^ s.spriteBit x y n row col)) ∧
      (∀ r : Reg, r ≠ 15#4 → t.reg r = s.reg r) ∧ (t.reg 15#4 = 0 ∨ t.reg 15#4 = 1) ∧
      (t.reg 15#4 = 1 ↔
        ∃ row col, row < 32 ∧ col < 64 ∧ s.spriteBit x y n row col = true ∧ cell s.fb row col = true)

/-- R241's corner case (D18, D20; log 13): the same sprite drawn twice at the same place restores the framebuffer; the
second draw collides exactly if some sprite bit fell on a dark cell. -/
def Obligations.DrawingTwiceRestoresTheFramebuffer : Prop :=
  ∀ (x y : Reg) (n : BitVec 4) (s t : State), x ≠ 15#4 → y ≠ 15#4 → exec (.drw x y n) s = .next t →
    ∃ u, exec (.drw x y n) t = .next u ∧
      (∀ row col, row < 32 → col < 64 → cell u.fb row col = cell s.fb row col) ∧
      (u.reg 15#4 = 1 ↔
        ∃ row col, row < 32 ∧ col < 64 ∧ s.spriteBit x y n row col = true ∧ cell s.fb row col = false)

/-! ## Input and timers -/

/-- R260, R261, R264 (D15): EX9E skips if key V[x] is held in this step's mask, EXA1 if it is not; a value of 16 or
more names no key. -/
def Obligations.KeySkipsTestTheLatchedMask : Prop :=
  ∀ (x : Reg) (s : State), ∃ t u, exec (.skp x) s = .next t ∧ exec (.sknp x) s = .next u ∧ PcOnly s t ∧ PcOnly s u ∧
    (((s.reg x).toNat < 16 ∧ s.keys.getLsbD (s.reg x).toNat = true) →
      t.pc.toNat = (s.pc.toNat + 2) % 4096 ∧ u.pc = s.pc) ∧
    (¬((s.reg x).toNat < 16 ∧ s.keys.getLsbD (s.reg x).toNat = true) →
      t.pc = s.pc ∧ u.pc.toNat = (s.pc.toNat + 2) % 4096)

/-- R262 (D21, D23): FX0A completes with the lowest key that went down in its own step; with none it waits, pc back at
its own address. -/
def Obligations.Fx0aCompletesOrWaits : Prop :=
  ∀ (x : Reg) (s : State),
    (∀ k, LowestNew s.prev s.keys k →
      ∃ t, exec (.ldVxK x) s = .next t ∧ (t.reg x).toNat = k ∧ RegsOnly [x] s t) ∧
    ((∀ k, ¬LowestNew s.prev s.keys k) →
      ∃ t, exec (.ldVxK x) s = .next t ∧ t.wait = some x ∧ t.pc.toNat = (s.pc.toNat + 65534) % 4096 ∧
        t = { s with wait := t.wait, pc := t.pc })

/-- R280: FX07 reads the delay timer as the previous step left it. The spec marks the rule as derived. -/
def Obligations.LdVxDtReadsTheDelayTimer : Prop :=
  (∀ (x : Reg) (s : State), ∃ t, exec (.ldVxDt x) s = .next t ∧ t.reg x = s.DT ∧ RegsOnly [x] s t) ∧
  (∀ (x : Reg) (s : State), Accepts s → Fetches s (.ldVxDt x) → ∃ t, step s = .next t ∧ t.reg x = s.DT)

/-! ## Debug accessors -/

/-- R334: get_reg and set_reg in range, with the round trip; out of range a read gives 0 and a write does nothing. -/
def Obligations.RegisterAccessorsClamp : Prop :=
  ∀ (s : State) (v : Byte),
    (∀ r : Reg, perform (.getReg r.toNat) s = (.byte (s.reg r), s) ∧
      ∃ t, perform (.setReg r.toNat v) s = (.done, t) ∧ t.reg r = v ∧ RegsOnly [r] s t) ∧
    (∀ i : Int, i < 0 ∨ 16 ≤ i → perform (.getReg i) s = (.byte 0, s) ∧ perform (.setReg i v) s = (.done, s))

/-- R335: get_mem and set_mem in range, with the round trip; out of range, not reduced, a read gives 0 and a write does
nothing. -/
def Obligations.MemoryAccessorsClamp : Prop :=
  ∀ (s : State) (v : Byte), Memory.wf s.mem = true →
    (∀ a : Nat, a < 4096 → perform (.getMem a) s = (.byte (s.load8 a), s) ∧
      ∃ t, perform (.setMem a v) s = (.done, t) ∧ t = { s with mem := t.mem } ∧ t.load8 a = v ∧
        ∀ b, b < 4096 → b ≠ a → t.load8 b = s.load8 b) ∧
    (∀ a : Int, a < 0 ∨ 4096 ≤ a → perform (.getMem a) s = (.byte 0, s) ∧ perform (.setMem a v) s = (.done, s))

/-- R332, R333, R337 (D13, D28): get and set of pc (stored mod 4096, wait untouched) and of the index register (all 16
bits), whatever `fault` and `wait` hold. -/
def Obligations.PcAndIndexAccessors : Prop :=
  ∀ (s : State) (v : Word),
    perform .getPc s = (.word s.pc, s) ∧ perform .getIndex s = (.word s.I, s) ∧
    (∃ t, perform (.setPc v) s = (.done, t) ∧ t.pc.toNat = v.toNat % 4096 ∧ PcOnly s t) ∧
    (∃ t, perform (.setIndex v) s = (.done, t) ∧ t.I = v ∧ IndexOnly s t)
end

