-- ==== Sys2Proof/Laws/Decode.lean ====
section
/-!
SUPPORT. The fields of a word put together from fields (spec/30_encoding.md R101, R102): one lemma per format and field.
-/

namespace Sys2Proof

/-! ## Bits of a word put together from fields -/

theorem getLsbD_word (f : BitVec 4) (a : Addr) (i : Nat) :
    (formatA f a).getLsbD i = if i < 12 then a.getLsbD i else f.getLsbD (i - 12) := BitVec.getLsbD_append

theorem getLsbD_addr (x : Reg) (nn : Byte) (i : Nat) :
    BitVec.getLsbD (w := 12) (x ++ nn) i = if i < 8 then nn.getLsbD i else x.getLsbD (i - 8) := BitVec.getLsbD_append

theorem getLsbD_byte (y : Reg) (n : BitVec 4) (i : Nat) :
    BitVec.getLsbD (w := 8) (y ++ n) i = if i < 4 then n.getLsbD i else y.getLsbD (i - 4) := BitVec.getLsbD_append

/-! ## Format A: fam, nnn -/

@[simp] theorem famOf_formatA (f : BitVec 4) (nnn : Addr) : famOf (formatA f nnn) = f := by
  apply BitVec.eq_of_getLsbD_eq
  intro i hi
  simp only [famOf, BitVec.getLsbD_extractLsb', getLsbD_word]
  simp [hi]

@[simp] theorem nnnOf_formatA (f : BitVec 4) (nnn : Addr) : nnnOf (formatA f nnn) = nnn := by
  apply BitVec.eq_of_getLsbD_eq
  intro i hi
  simp only [nnnOf, BitVec.getLsbD_extractLsb', getLsbD_word]
  simp [hi]

theorem xOf_formatA (f : BitVec 4) (nnn : Addr) : xOf (formatA f nnn) = nnn.extractLsb' 8 4 := by
  apply BitVec.eq_of_getLsbD_eq
  intro i hi
  simp only [xOf, BitVec.getLsbD_extractLsb', getLsbD_word, show 8 + i < 12 by omega, if_true]

/-! ## Parts of an address and of a byte -/

theorem addr_high (x : Reg) (nn : Byte) : BitVec.extractLsb' 8 4 (x ++ nn : Addr) = x := by
  apply BitVec.eq_of_getLsbD_eq
  intro i hi
  simp only [BitVec.getLsbD_extractLsb', getLsbD_addr]
  simp [hi]

theorem addr_low (x : Reg) (nn : Byte) : BitVec.extractLsb' 0 8 (x ++ nn : Addr) = nn := by
  apply BitVec.eq_of_getLsbD_eq
  intro i hi
  simp only [BitVec.getLsbD_extractLsb', getLsbD_addr]
  simp [hi]

theorem byte_high (y : Reg) (n : BitVec 4) : BitVec.extractLsb' 4 4 (y ++ n : Byte) = y := by
  apply BitVec.eq_of_getLsbD_eq
  intro i hi
  simp only [BitVec.getLsbD_extractLsb', getLsbD_byte]
  simp [hi]

theorem byte_low (y : Reg) (n : BitVec 4) : BitVec.extractLsb' 0 4 (y ++ n : Byte) = n := by
  apply BitVec.eq_of_getLsbD_eq
  intro i hi
  simp only [BitVec.getLsbD_extractLsb', getLsbD_byte]
  simp [hi]

theorem nnOf_formatA (f : BitVec 4) (a : Addr) : nnOf (formatA f a) = a.extractLsb' 0 8 := by
  apply BitVec.eq_of_getLsbD_eq
  intro i hi
  simp only [nnOf, BitVec.getLsbD_extractLsb', getLsbD_word, show 0 + i < 12 by omega, if_true]

theorem yOf_eq (w : Word) : yOf w = (nnOf w).extractLsb' 4 4 := by
  apply BitVec.eq_of_getLsbD_eq
  intro i hi
  simp [yOf, nnOf, hi]

theorem nOf_eq (w : Word) : nOf w = (nnOf w).extractLsb' 0 4 := by
  apply BitVec.eq_of_getLsbD_eq
  intro i hi
  simp [nOf, nnOf, hi]

/-! ## Formats XNN and X: fam, x, nn -/

@[simp] theorem famOf_formatXNN (f : BitVec 4) (x : Reg) (nn : Byte) : famOf (formatXNN f x nn) = f :=
  famOf_formatA f (x ++ nn)

@[simp] theorem xOf_formatXNN (f : BitVec 4) (x : Reg) (nn : Byte) : xOf (formatXNN f x nn) = x :=
  (xOf_formatA f (x ++ nn)).trans (addr_high x nn)

@[simp] theorem nnOf_formatXNN (f : BitVec 4) (x : Reg) (nn : Byte) : nnOf (formatXNN f x nn) = nn :=
  (nnOf_formatA f (x ++ nn)).trans (addr_low x nn)

/-! ## Formats XY and XYN: fam, x, y, n -/

@[simp] theorem famOf_formatXYN (f : BitVec 4) (x y : Reg) (n : BitVec 4) : famOf (formatXYN f x y n) = f :=
  famOf_formatA f (x ++ (y ++ n))

@[simp] theorem xOf_formatXYN (f : BitVec 4) (x y : Reg) (n : BitVec 4) : xOf (formatXYN f x y n) = x :=
  xOf_formatXNN f x (y ++ n)

@[simp] theorem nnOf_formatXYN (f : BitVec 4) (x y : Reg) (n : BitVec 4) : nnOf (formatXYN f x y n) = y ++ n :=
  nnOf_formatXNN f x (y ++ n)

@[simp] theorem yOf_formatXYN (f : BitVec 4) (x y : Reg) (n : BitVec 4) : yOf (formatXYN f x y n) = y :=
  (yOf_eq _).trans ((congrArg (BitVec.extractLsb' 4 4) (nnOf_formatXYN f x y n)).trans (byte_high y n))

@[simp] theorem nOf_formatXYN (f : BitVec 4) (x y : Reg) (n : BitVec 4) : nOf (formatXYN f x y n) = n :=
  (nOf_eq _).trans ((congrArg (BitVec.extractLsb' 0 4) (nnOf_formatXYN f x y n)).trans (byte_low y n))

/-! ## A word is its fields -/

/-- Every word is format A of its own fields. -/
theorem eq_formatA (w : Word) : w = formatA (famOf w) (nnnOf w) := by
  apply BitVec.eq_of_getLsbD_eq
  intro i hi
  rw [getLsbD_word]
  by_cases h : i < 12
  · simp only [nnnOf, BitVec.getLsbD_extractLsb', h]
    simp
  · simp only [famOf, BitVec.getLsbD_extractLsb', h, show i - 12 < 4 by omega, show 12 + (i - 12) = i by omega]
    simp

/-- The address field is x and nn. -/
theorem nnnOf_eq (w : Word) : nnnOf w = xOf w ++ nnOf w := by
  apply BitVec.eq_of_getLsbD_eq
  intro i hi
  rw [getLsbD_addr]
  by_cases h : i < 8
  · simp only [nnnOf, nnOf, BitVec.getLsbD_extractLsb', h, hi]
    simp
  · simp only [nnnOf, xOf, BitVec.getLsbD_extractLsb', h, hi, show i - 8 < 4 by omega, show 8 + (i - 8) = i by omega]
    simp

/-- The byte field is y and n. -/
theorem nnOf_eq (w : Word) : nnOf w = yOf w ++ nOf w := by
  apply BitVec.eq_of_getLsbD_eq
  intro i hi
  rw [getLsbD_byte]
  by_cases h : i < 4
  · simp only [nnOf, nOf, BitVec.getLsbD_extractLsb', h, hi]
    simp
  · simp only [nnOf, yOf, BitVec.getLsbD_extractLsb', h, hi, show i - 4 < 4 by omega, show 4 + (i - 4) = i by omega]
    simp

/-! ## Bytes and words (R72) -/

/-- The two bytes of a word, put together big-endian, are the word. -/
@[simp] theorem wordOfBytes_bytes (w : Word) : wordOfBytes (w.extractLsb' 8 8) (w.extractLsb' 0 8) = w := by
  apply BitVec.eq_of_getLsbD_eq
  intro i hi
  have h : ∀ a b : Byte, BitVec.getLsbD (w := 16) (a ++ b) i = if i < 8 then b.getLsbD i else a.getLsbD (i - 8) :=
    fun _ _ => BitVec.getLsbD_append
  rw [wordOfBytes, h]
  by_cases h8 : i < 8
  · simp [h8]
  · simp only [BitVec.getLsbD_extractLsb', h8, show i - 8 < 8 by omega, show 8 + (i - 8) = i by omega]
    simp

end Sys2Proof
end

