-- ==== Sys2Proof/Laws/Memory.lean ====
section
/-!
SUPPORT. The laws of memory: a read after a write, and that every write keeps the canonical form.
-/

namespace Sys2Proof.Machine.Memory

theorem wfFrom_mono {lo lo' : Nat} {m : Memory} (hl : lo' ≤ lo) (h : wfFrom lo m = true) : wfFrom lo' m = true := by
  cases m with
  | nil => rfl
  | cons c rest =>
    obtain ⟨a, v⟩ := c
    simp only [wfFrom, Bool.and_eq_true, decide_eq_true_eq] at h ⊢
    exact ⟨⟨⟨by omega, h.1.1.2⟩, h.1.2⟩, h.2⟩

/-- Below the first key of a canonical list nothing is listed. -/
theorem read_below {lo a : Nat} {m : Memory} (h : wfFrom lo m = true) (ha : a < lo) : read m a = blankByte a := by
  cases m with
  | nil => rfl
  | cons c rest =>
    obtain ⟨b, v⟩ := c
    simp only [wfFrom, Bool.and_eq_true, decide_eq_true_eq] at h
    simp [read, show a < b by omega]

theorem read_write_from {m : Memory} {lo : Nat} (h : wfFrom lo m = true) (a b : Nat) (v : Byte) :
    read (write m a v) b = if b = a then v else read m b := by
  induction m generalizing lo with
  | nil =>
    by_cases hv : v = blankByte a
    · by_cases hb : b = a <;> simp [write, read, hv, hb]
    · by_cases hb : b = a
      · simp [write, read, hv, hb]
      · by_cases hlt : b < a <;> simp [write, read, hv, hb, hlt]
  | cons c rest ih =>
    obtain ⟨k, w⟩ := c
    simp only [wfFrom, Bool.and_eq_true, decide_eq_true_eq] at h
    have ih := ih h.2
    rcases Nat.lt_trichotomy a k with hk | hk | hk
    · by_cases hv : v = blankByte a
      · by_cases hb : b = a
        · subst hb; simp [write, read, hk, hv]
        · simp [write, hk, hv, hb]
      · by_cases hb : b = a
        · subst hb; simp [write, read, hk, hv]
        · by_cases hlt : b < a
          · simp [write, read, hk, hv, hb, hlt, show b < k by omega]
          · simp [write, read, hk, hv, hb, hlt]
    · subst hk
      by_cases hv : v = blankByte a
      · by_cases hb : b = a
        · subst hb; simp [write, hv, read_below h.2 (Nat.lt_succ_self b)]
        · by_cases hlt : b < a
          · simp [write, read, hv, hb, hlt, read_below h.2 (show b < a + 1 by omega)]
          · simp [write, read, hv, hb, hlt]
      · by_cases hb : b = a
        · subst hb; simp [write, read, hv]
        · by_cases hlt : b < a <;> simp [write, read, hv, hb, hlt]
    · have h1 : ¬ a < k := by omega
      have h2 : ¬ a = k := by omega
      simp only [write, h1, h2, if_false, read, ih]
      by_cases hb : b = a
      · subst hb; simp [h1, h2]
      · by_cases hlt : b < k <;> by_cases he : b = k <;> simp [hb, hlt, he] <;> omega

/-- A read after a write gives the byte written at its address, and what was there everywhere else (R77, R81). -/
theorem read_write {m : Memory} (h : wf m = true) (a b : Nat) (v : Byte) :
    read (write m a v) b = if b = a then v else read m b := read_write_from h a b v

theorem wfFrom_write {m : Memory} {lo : Nat} (h : wfFrom lo m = true) {a : Nat} (v : Byte) (hlo : lo ≤ a)
    (ha : a < 4096) : wfFrom lo (write m a v) = true := by
  induction m generalizing lo with
  | nil => by_cases hv : v = blankByte a <;> simp [write, wfFrom, hv, hlo, ha]
  | cons c rest ih =>
    obtain ⟨k, w⟩ := c
    have h' := h
    simp only [wfFrom, Bool.and_eq_true, decide_eq_true_eq] at h'
    rcases Nat.lt_trichotomy a k with hk | hk | hk
    · by_cases hv : v = blankByte a
      · simpa [write, hk, hv] using h
      · simp [write, wfFrom, hk, hv, hlo, ha, h'.1.1.2, h'.1.2, h'.2, Nat.succ_le_of_lt hk]
    · subst hk
      by_cases hv : v = blankByte a
      · simpa [write, hv] using wfFrom_mono (Nat.le_succ_of_le hlo) h'.2
      · simp [write, wfFrom, hv, hlo, ha, h'.2]
    · have h1 : ¬ a < k := by omega
      have h2 : ¬ a = k := by omega
      simp [write, wfFrom, h1, h2, h'.1.1.1, h'.1.1.2, h'.1.2, ih h'.2 (by omega)]

/-- A write below 4096 keeps the canonical form. -/
theorem wf_write {m : Memory} (h : wf m = true) {a : Nat} (v : Byte) (ha : a < 4096) : wf (write m a v) = true :=
  wfFrom_write h v (Nat.zero_le a) ha

theorem wf_nil : wf [] = true := rfl

theorem wf_writeBytes {m : Memory} (h : wf m = true) (a : Nat) (bs : List Byte) : wf (writeBytes m a bs) = true := by
  induction bs generalizing m a with
  | nil => exact h
  | cons b rest ih => exact ih (wf_write h b (Nat.mod_lt _ (by omega))) _

theorem wf_writeCells {m : Memory} (h : wf m = true) (cs : List Host.Cell) : wf (writeCells m cs) = true := by
  induction cs generalizing m with
  | nil => exact h
  | cons c rest ih => exact ih (wf_write h c.2 (Nat.mod_lt _ (by omega)))

/-- An address that no byte of the run lands on reads as before. -/
theorem read_writeBytes_other {m : Memory} (h : wf m = true) {a b : Nat} {bs : List Byte}
    (hb : ∀ k, k < bs.length → b ≠ (a + k) % 4096) : read (writeBytes m a bs) b = read m b := by
  induction bs generalizing m a with
  | nil => rfl
  | cons v rest ih =>
    have h0 : b ≠ a % 4096 := hb 0 (by simp)
    rw [writeBytes, ih (wf_write h v (Nat.mod_lt _ (by omega)))]
    · rw [read_write h, if_neg h0]
    · intro k hk
      have := hb (k + 1) (by simpa using hk)
      rwa [show a + 1 + k = a + (k + 1) by omega]

/-- The k-th byte of a run that does not overlap itself is what its address reads afterwards (R75). -/
theorem read_writeBytes_at {m : Memory} (h : wf m = true) {a : Nat} {bs : List Byte} (hl : bs.length ≤ 4096)
    {k : Nat} (hk : k < bs.length) : read (writeBytes m a bs) ((a + k) % 4096) = bs[k] := by
  induction bs generalizing m a k with
  | nil => simp at hk
  | cons v rest ih =>
    have hw := wf_write h v (Nat.mod_lt a (by omega : 0 < 4096))
    rw [writeBytes]
    cases k with
    | zero =>
      rw [read_writeBytes_other hw, read_write h]
      · simp
      · intro j hj
        simp only [List.length_cons] at hl
        omega
    | succ j =>
      simp only [List.length_cons] at hl hk
      have := ih hw (by omega) (a := a + 1) (k := j) (by omega)
      rw [show a + (j + 1) = a + 1 + j by omega, this]
      simp

/-- A run of bytes by its closed form: the address at distance k from the start holds byte k. -/
theorem read_writeBytes {m : Memory} (h : wf m = true) {a b : Nat} {bs : List Byte} (hl : bs.length ≤ 4096)
    (hb : b < 4096) :
    read (writeBytes m a bs) b =
      if hk : (b + 4096 - a % 4096) % 4096 < bs.length then bs[(b + 4096 - a % 4096) % 4096] else read m b := by
  split
  next hk =>
    have := read_writeBytes_at h hl (a := a) hk
    rwa [show (a + (b + 4096 - a % 4096) % 4096) % 4096 = b by omega] at this
  next hk =>
    refine read_writeBytes_other h fun k hkl => ?_
    omega

end Sys2Proof.Machine.Memory
end

