-- ==== Sys2Proof/Laws/State.lean ====
section
/-!
SUPPORT. For each update of the state (Ops.lean), what every field holds after it: one lemma per field per update, so
that no later proof unfolds a record update.
-/

namespace Sys2Proof.Machine

variable (s : State)

/-! ### setReg -/

@[simp] theorem State.setReg_mem (x : Reg) (v : Byte) : (s.setReg x v).mem = s.mem := rfl
@[simp] theorem State.setReg_V (x : Reg) (v : Byte) : (s.setReg x v).V = s.V.set x.toNat v x.isLt := rfl
@[simp] theorem State.setReg_I (x : Reg) (v : Byte) : (s.setReg x v).I = s.I := rfl
@[simp] theorem State.setReg_pc (x : Reg) (v : Byte) : (s.setReg x v).pc = s.pc := rfl
@[simp] theorem State.setReg_stack (x : Reg) (v : Byte) : (s.setReg x v).stack = s.stack := rfl
@[simp] theorem State.setReg_sp (x : Reg) (v : Byte) : (s.setReg x v).sp = s.sp := rfl
@[simp] theorem State.setReg_DT (x : Reg) (v : Byte) : (s.setReg x v).DT = s.DT := rfl
@[simp] theorem State.setReg_ST (x : Reg) (v : Byte) : (s.setReg x v).ST = s.ST := rfl
@[simp] theorem State.setReg_keys (x : Reg) (v : Byte) : (s.setReg x v).keys = s.keys := rfl
@[simp] theorem State.setReg_fb (x : Reg) (v : Byte) : (s.setReg x v).fb = s.fb := rfl
@[simp] theorem State.setReg_wait (x : Reg) (v : Byte) : (s.setReg x v).wait = s.wait := rfl
@[simp] theorem State.setReg_lastTick (x : Reg) (v : Byte) : (s.setReg x v).lastTick = s.lastTick := rfl
@[simp] theorem State.setReg_fault (x : Reg) (v : Byte) : (s.setReg x v).fault = s.fault := rfl
@[simp] theorem State.setReg_loaded (x : Reg) (v : Byte) : (s.setReg x v).loaded = s.loaded := rfl
@[simp] theorem State.setReg_prev (x : Reg) (v : Byte) : (s.setReg x v).prev = s.prev := rfl
@[simp] theorem State.setReg_reply (x : Reg) (v : Byte) : (s.setReg x v).reply = s.reply := rfl
@[simp] theorem State.setReg_draws (x : Reg) (v : Byte) : (s.setReg x v).draws = s.draws := rfl
@[simp] theorem State.setReg_calls (x : Reg) (v : Byte) : (s.setReg x v).calls = s.calls := rfl
@[simp] theorem State.setReg_cfg (x : Reg) (v : Byte) : (s.setReg x v).cfg = s.cfg := rfl

/-! ### setIndex -/

@[simp] theorem State.setIndex_mem (v : Word) : (s.setIndex v).mem = s.mem := rfl
@[simp] theorem State.setIndex_V (v : Word) : (s.setIndex v).V = s.V := rfl
@[simp] theorem State.setIndex_I (v : Word) : (s.setIndex v).I = v := rfl
@[simp] theorem State.setIndex_pc (v : Word) : (s.setIndex v).pc = s.pc := rfl
@[simp] theorem State.setIndex_stack (v : Word) : (s.setIndex v).stack = s.stack := rfl
@[simp] theorem State.setIndex_sp (v : Word) : (s.setIndex v).sp = s.sp := rfl
@[simp] theorem State.setIndex_DT (v : Word) : (s.setIndex v).DT = s.DT := rfl
@[simp] theorem State.setIndex_ST (v : Word) : (s.setIndex v).ST = s.ST := rfl
@[simp] theorem State.setIndex_keys (v : Word) : (s.setIndex v).keys = s.keys := rfl
@[simp] theorem State.setIndex_fb (v : Word) : (s.setIndex v).fb = s.fb := rfl
@[simp] theorem State.setIndex_wait (v : Word) : (s.setIndex v).wait = s.wait := rfl
@[simp] theorem State.setIndex_lastTick (v : Word) : (s.setIndex v).lastTick = s.lastTick := rfl
@[simp] theorem State.setIndex_fault (v : Word) : (s.setIndex v).fault = s.fault := rfl
@[simp] theorem State.setIndex_loaded (v : Word) : (s.setIndex v).loaded = s.loaded := rfl
@[simp] theorem State.setIndex_prev (v : Word) : (s.setIndex v).prev = s.prev := rfl
@[simp] theorem State.setIndex_reply (v : Word) : (s.setIndex v).reply = s.reply := rfl
@[simp] theorem State.setIndex_draws (v : Word) : (s.setIndex v).draws = s.draws := rfl
@[simp] theorem State.setIndex_calls (v : Word) : (s.setIndex v).calls = s.calls := rfl
@[simp] theorem State.setIndex_cfg (v : Word) : (s.setIndex v).cfg = s.cfg := rfl

/-! ### setPc -/

@[simp] theorem State.setPc_mem (v : Word) : (s.setPc v).mem = s.mem := rfl
@[simp] theorem State.setPc_V (v : Word) : (s.setPc v).V = s.V := rfl
@[simp] theorem State.setPc_I (v : Word) : (s.setPc v).I = s.I := rfl
@[simp] theorem State.setPc_pc (v : Word) : (s.setPc v).pc = maskPc v := rfl
@[simp] theorem State.setPc_stack (v : Word) : (s.setPc v).stack = s.stack := rfl
@[simp] theorem State.setPc_sp (v : Word) : (s.setPc v).sp = s.sp := rfl
@[simp] theorem State.setPc_DT (v : Word) : (s.setPc v).DT = s.DT := rfl
@[simp] theorem State.setPc_ST (v : Word) : (s.setPc v).ST = s.ST := rfl
@[simp] theorem State.setPc_keys (v : Word) : (s.setPc v).keys = s.keys := rfl
@[simp] theorem State.setPc_fb (v : Word) : (s.setPc v).fb = s.fb := rfl
@[simp] theorem State.setPc_wait (v : Word) : (s.setPc v).wait = s.wait := rfl
@[simp] theorem State.setPc_lastTick (v : Word) : (s.setPc v).lastTick = s.lastTick := rfl
@[simp] theorem State.setPc_fault (v : Word) : (s.setPc v).fault = s.fault := rfl
@[simp] theorem State.setPc_loaded (v : Word) : (s.setPc v).loaded = s.loaded := rfl
@[simp] theorem State.setPc_prev (v : Word) : (s.setPc v).prev = s.prev := rfl
@[simp] theorem State.setPc_reply (v : Word) : (s.setPc v).reply = s.reply := rfl
@[simp] theorem State.setPc_draws (v : Word) : (s.setPc v).draws = s.draws := rfl
@[simp] theorem State.setPc_calls (v : Word) : (s.setPc v).calls = s.calls := rfl
@[simp] theorem State.setPc_cfg (v : Word) : (s.setPc v).cfg = s.cfg := rfl

/-! ### advance -/

@[simp] theorem State.advance_mem : s.advance.mem = s.mem := rfl
@[simp] theorem State.advance_V : s.advance.V = s.V := rfl
@[simp] theorem State.advance_I : s.advance.I = s.I := rfl
@[simp] theorem State.advance_pc : s.advance.pc = maskPc (s.pc + 2) := rfl
@[simp] theorem State.advance_stack : s.advance.stack = s.stack := rfl
@[simp] theorem State.advance_sp : s.advance.sp = s.sp := rfl
@[simp] theorem State.advance_DT : s.advance.DT = s.DT := rfl
@[simp] theorem State.advance_ST : s.advance.ST = s.ST := rfl
@[simp] theorem State.advance_keys : s.advance.keys = s.keys := rfl
@[simp] theorem State.advance_fb : s.advance.fb = s.fb := rfl
@[simp] theorem State.advance_wait : s.advance.wait = s.wait := rfl
@[simp] theorem State.advance_lastTick : s.advance.lastTick = s.lastTick := rfl
@[simp] theorem State.advance_fault : s.advance.fault = s.fault := rfl
@[simp] theorem State.advance_loaded : s.advance.loaded = s.loaded := rfl
@[simp] theorem State.advance_prev : s.advance.prev = s.prev := rfl
@[simp] theorem State.advance_reply : s.advance.reply = s.reply := rfl
@[simp] theorem State.advance_draws : s.advance.draws = s.draws := rfl
@[simp] theorem State.advance_calls : s.advance.calls = s.calls := rfl
@[simp] theorem State.advance_cfg : s.advance.cfg = s.cfg := rfl

/-! ### store8 -/

@[simp] theorem State.store8_mem (a : Nat) (v : Byte) : (s.store8 a v).mem = Memory.write s.mem (a % 4096) v := rfl
@[simp] theorem State.store8_V (a : Nat) (v : Byte) : (s.store8 a v).V = s.V := rfl
@[simp] theorem State.store8_I (a : Nat) (v : Byte) : (s.store8 a v).I = s.I := rfl
@[simp] theorem State.store8_pc (a : Nat) (v : Byte) : (s.store8 a v).pc = s.pc := rfl
@[simp] theorem State.store8_stack (a : Nat) (v : Byte) : (s.store8 a v).stack = s.stack := rfl
@[simp] theorem State.store8_sp (a : Nat) (v : Byte) : (s.store8 a v).sp = s.sp := rfl
@[simp] theorem State.store8_DT (a : Nat) (v : Byte) : (s.store8 a v).DT = s.DT := rfl
@[simp] theorem State.store8_ST (a : Nat) (v : Byte) : (s.store8 a v).ST = s.ST := rfl
@[simp] theorem State.store8_keys (a : Nat) (v : Byte) : (s.store8 a v).keys = s.keys := rfl
@[simp] theorem State.store8_fb (a : Nat) (v : Byte) : (s.store8 a v).fb = s.fb := rfl
@[simp] theorem State.store8_wait (a : Nat) (v : Byte) : (s.store8 a v).wait = s.wait := rfl
@[simp] theorem State.store8_lastTick (a : Nat) (v : Byte) : (s.store8 a v).lastTick = s.lastTick := rfl
@[simp] theorem State.store8_fault (a : Nat) (v : Byte) : (s.store8 a v).fault = s.fault := rfl
@[simp] theorem State.store8_loaded (a : Nat) (v : Byte) : (s.store8 a v).loaded = s.loaded := rfl
@[simp] theorem State.store8_prev (a : Nat) (v : Byte) : (s.store8 a v).prev = s.prev := rfl
@[simp] theorem State.store8_reply (a : Nat) (v : Byte) : (s.store8 a v).reply = s.reply := rfl
@[simp] theorem State.store8_draws (a : Nat) (v : Byte) : (s.store8 a v).draws = s.draws := rfl
@[simp] theorem State.store8_calls (a : Nat) (v : Byte) : (s.store8 a v).calls = s.calls := rfl
@[simp] theorem State.store8_cfg (a : Nat) (v : Byte) : (s.store8 a v).cfg = s.cfg := rfl

/-! ### storeBytes -/

@[simp] theorem State.storeBytes_mem (a : Nat) (bs : List Byte) : (s.storeBytes a bs).mem = Memory.writeBytes s.mem a bs := rfl
@[simp] theorem State.storeBytes_V (a : Nat) (bs : List Byte) : (s.storeBytes a bs).V = s.V := rfl
@[simp] theorem State.storeBytes_I (a : Nat) (bs : List Byte) : (s.storeBytes a bs).I = s.I := rfl
@[simp] theorem State.storeBytes_pc (a : Nat) (bs : List Byte) : (s.storeBytes a bs).pc = s.pc := rfl
@[simp] theorem State.storeBytes_stack (a : Nat) (bs : List Byte) : (s.storeBytes a bs).stack = s.stack := rfl
@[simp] theorem State.storeBytes_sp (a : Nat) (bs : List Byte) : (s.storeBytes a bs).sp = s.sp := rfl
@[simp] theorem State.storeBytes_DT (a : Nat) (bs : List Byte) : (s.storeBytes a bs).DT = s.DT := rfl
@[simp] theorem State.storeBytes_ST (a : Nat) (bs : List Byte) : (s.storeBytes a bs).ST = s.ST := rfl
@[simp] theorem State.storeBytes_keys (a : Nat) (bs : List Byte) : (s.storeBytes a bs).keys = s.keys := rfl
@[simp] theorem State.storeBytes_fb (a : Nat) (bs : List Byte) : (s.storeBytes a bs).fb = s.fb := rfl
@[simp] theorem State.storeBytes_wait (a : Nat) (bs : List Byte) : (s.storeBytes a bs).wait = s.wait := rfl
@[simp] theorem State.storeBytes_lastTick (a : Nat) (bs : List Byte) : (s.storeBytes a bs).lastTick = s.lastTick := rfl
@[simp] theorem State.storeBytes_fault (a : Nat) (bs : List Byte) : (s.storeBytes a bs).fault = s.fault := rfl
@[simp] theorem State.storeBytes_loaded (a : Nat) (bs : List Byte) : (s.storeBytes a bs).loaded = s.loaded := rfl
@[simp] theorem State.storeBytes_prev (a : Nat) (bs : List Byte) : (s.storeBytes a bs).prev = s.prev := rfl
@[simp] theorem State.storeBytes_reply (a : Nat) (bs : List Byte) : (s.storeBytes a bs).reply = s.reply := rfl
@[simp] theorem State.storeBytes_draws (a : Nat) (bs : List Byte) : (s.storeBytes a bs).draws = s.draws := rfl
@[simp] theorem State.storeBytes_calls (a : Nat) (bs : List Byte) : (s.storeBytes a bs).calls = s.calls := rfl
@[simp] theorem State.storeBytes_cfg (a : Nat) (bs : List Byte) : (s.storeBytes a bs).cfg = s.cfg := rfl

/-! ### setDelay -/

@[simp] theorem State.setDelay_mem (v : Byte) : (s.setDelay v).mem = s.mem := rfl
@[simp] theorem State.setDelay_V (v : Byte) : (s.setDelay v).V = s.V := rfl
@[simp] theorem State.setDelay_I (v : Byte) : (s.setDelay v).I = s.I := rfl
@[simp] theorem State.setDelay_pc (v : Byte) : (s.setDelay v).pc = s.pc := rfl
@[simp] theorem State.setDelay_stack (v : Byte) : (s.setDelay v).stack = s.stack := rfl
@[simp] theorem State.setDelay_sp (v : Byte) : (s.setDelay v).sp = s.sp := rfl
@[simp] theorem State.setDelay_DT (v : Byte) : (s.setDelay v).DT = v := rfl
@[simp] theorem State.setDelay_ST (v : Byte) : (s.setDelay v).ST = s.ST := rfl
@[simp] theorem State.setDelay_keys (v : Byte) : (s.setDelay v).keys = s.keys := rfl
@[simp] theorem State.setDelay_fb (v : Byte) : (s.setDelay v).fb = s.fb := rfl
@[simp] theorem State.setDelay_wait (v : Byte) : (s.setDelay v).wait = s.wait := rfl
@[simp] theorem State.setDelay_lastTick (v : Byte) : (s.setDelay v).lastTick = s.lastTick := rfl
@[simp] theorem State.setDelay_fault (v : Byte) : (s.setDelay v).fault = s.fault := rfl
@[simp] theorem State.setDelay_loaded (v : Byte) : (s.setDelay v).loaded = s.loaded := rfl
@[simp] theorem State.setDelay_prev (v : Byte) : (s.setDelay v).prev = s.prev := rfl
@[simp] theorem State.setDelay_reply (v : Byte) : (s.setDelay v).reply = s.reply := rfl
@[simp] theorem State.setDelay_draws (v : Byte) : (s.setDelay v).draws = s.draws := rfl
@[simp] theorem State.setDelay_calls (v : Byte) : (s.setDelay v).calls = s.calls := rfl
@[simp] theorem State.setDelay_cfg (v : Byte) : (s.setDelay v).cfg = s.cfg := rfl

/-! ### setSound -/

@[simp] theorem State.setSound_mem (v : Byte) : (s.setSound v).mem = s.mem := rfl
@[simp] theorem State.setSound_V (v : Byte) : (s.setSound v).V = s.V := rfl
@[simp] theorem State.setSound_I (v : Byte) : (s.setSound v).I = s.I := rfl
@[simp] theorem State.setSound_pc (v : Byte) : (s.setSound v).pc = s.pc := rfl
@[simp] theorem State.setSound_stack (v : Byte) : (s.setSound v).stack = s.stack := rfl
@[simp] theorem State.setSound_sp (v : Byte) : (s.setSound v).sp = s.sp := rfl
@[simp] theorem State.setSound_DT (v : Byte) : (s.setSound v).DT = s.DT := rfl
@[simp] theorem State.setSound_ST (v : Byte) : (s.setSound v).ST = v := rfl
@[simp] theorem State.setSound_keys (v : Byte) : (s.setSound v).keys = s.keys := rfl
@[simp] theorem State.setSound_fb (v : Byte) : (s.setSound v).fb = s.fb := rfl
@[simp] theorem State.setSound_wait (v : Byte) : (s.setSound v).wait = s.wait := rfl
@[simp] theorem State.setSound_lastTick (v : Byte) : (s.setSound v).lastTick = s.lastTick := rfl
@[simp] theorem State.setSound_fault (v : Byte) : (s.setSound v).fault = s.fault := rfl
@[simp] theorem State.setSound_loaded (v : Byte) : (s.setSound v).loaded = s.loaded := rfl
@[simp] theorem State.setSound_prev (v : Byte) : (s.setSound v).prev = s.prev := rfl
@[simp] theorem State.setSound_reply (v : Byte) : (s.setSound v).reply = s.reply := rfl
@[simp] theorem State.setSound_draws (v : Byte) : (s.setSound v).draws = s.draws := rfl
@[simp] theorem State.setSound_calls (v : Byte) : (s.setSound v).calls = s.calls := rfl
@[simp] theorem State.setSound_cfg (v : Byte) : (s.setSound v).cfg = s.cfg := rfl

/-! ### setFb -/

@[simp] theorem State.setFb_mem (f : Framebuffer) : (s.setFb f).mem = s.mem := rfl
@[simp] theorem State.setFb_V (f : Framebuffer) : (s.setFb f).V = s.V := rfl
@[simp] theorem State.setFb_I (f : Framebuffer) : (s.setFb f).I = s.I := rfl
@[simp] theorem State.setFb_pc (f : Framebuffer) : (s.setFb f).pc = s.pc := rfl
@[simp] theorem State.setFb_stack (f : Framebuffer) : (s.setFb f).stack = s.stack := rfl
@[simp] theorem State.setFb_sp (f : Framebuffer) : (s.setFb f).sp = s.sp := rfl
@[simp] theorem State.setFb_DT (f : Framebuffer) : (s.setFb f).DT = s.DT := rfl
@[simp] theorem State.setFb_ST (f : Framebuffer) : (s.setFb f).ST = s.ST := rfl
@[simp] theorem State.setFb_keys (f : Framebuffer) : (s.setFb f).keys = s.keys := rfl
@[simp] theorem State.setFb_fb (f : Framebuffer) : (s.setFb f).fb = f := rfl
@[simp] theorem State.setFb_wait (f : Framebuffer) : (s.setFb f).wait = s.wait := rfl
@[simp] theorem State.setFb_lastTick (f : Framebuffer) : (s.setFb f).lastTick = s.lastTick := rfl
@[simp] theorem State.setFb_fault (f : Framebuffer) : (s.setFb f).fault = s.fault := rfl
@[simp] theorem State.setFb_loaded (f : Framebuffer) : (s.setFb f).loaded = s.loaded := rfl
@[simp] theorem State.setFb_prev (f : Framebuffer) : (s.setFb f).prev = s.prev := rfl
@[simp] theorem State.setFb_reply (f : Framebuffer) : (s.setFb f).reply = s.reply := rfl
@[simp] theorem State.setFb_draws (f : Framebuffer) : (s.setFb f).draws = s.draws := rfl
@[simp] theorem State.setFb_calls (f : Framebuffer) : (s.setFb f).calls = s.calls := rfl
@[simp] theorem State.setFb_cfg (f : Framebuffer) : (s.setFb f).cfg = s.cfg := rfl

/-! ### setWait -/

@[simp] theorem State.setWait_mem (w : Option Reg) : (s.setWait w).mem = s.mem := rfl
@[simp] theorem State.setWait_V (w : Option Reg) : (s.setWait w).V = s.V := rfl
@[simp] theorem State.setWait_I (w : Option Reg) : (s.setWait w).I = s.I := rfl
@[simp] theorem State.setWait_pc (w : Option Reg) : (s.setWait w).pc = s.pc := rfl
@[simp] theorem State.setWait_stack (w : Option Reg) : (s.setWait w).stack = s.stack := rfl
@[simp] theorem State.setWait_sp (w : Option Reg) : (s.setWait w).sp = s.sp := rfl
@[simp] theorem State.setWait_DT (w : Option Reg) : (s.setWait w).DT = s.DT := rfl
@[simp] theorem State.setWait_ST (w : Option Reg) : (s.setWait w).ST = s.ST := rfl
@[simp] theorem State.setWait_keys (w : Option Reg) : (s.setWait w).keys = s.keys := rfl
@[simp] theorem State.setWait_fb (w : Option Reg) : (s.setWait w).fb = s.fb := rfl
@[simp] theorem State.setWait_wait (w : Option Reg) : (s.setWait w).wait = w := rfl
@[simp] theorem State.setWait_lastTick (w : Option Reg) : (s.setWait w).lastTick = s.lastTick := rfl
@[simp] theorem State.setWait_fault (w : Option Reg) : (s.setWait w).fault = s.fault := rfl
@[simp] theorem State.setWait_loaded (w : Option Reg) : (s.setWait w).loaded = s.loaded := rfl
@[simp] theorem State.setWait_prev (w : Option Reg) : (s.setWait w).prev = s.prev := rfl
@[simp] theorem State.setWait_reply (w : Option Reg) : (s.setWait w).reply = s.reply := rfl
@[simp] theorem State.setWait_draws (w : Option Reg) : (s.setWait w).draws = s.draws := rfl
@[simp] theorem State.setWait_calls (w : Option Reg) : (s.setWait w).calls = s.calls := rfl
@[simp] theorem State.setWait_cfg (w : Option Reg) : (s.setWait w).cfg = s.cfg := rfl

/-! ### latchKeys -/

@[simp] theorem State.latchKeys_mem (k : Word) : (s.latchKeys k).mem = s.mem := rfl
@[simp] theorem State.latchKeys_V (k : Word) : (s.latchKeys k).V = s.V := rfl
@[simp] theorem State.latchKeys_I (k : Word) : (s.latchKeys k).I = s.I := rfl
@[simp] theorem State.latchKeys_pc (k : Word) : (s.latchKeys k).pc = s.pc := rfl
@[simp] theorem State.latchKeys_stack (k : Word) : (s.latchKeys k).stack = s.stack := rfl
@[simp] theorem State.latchKeys_sp (k : Word) : (s.latchKeys k).sp = s.sp := rfl
@[simp] theorem State.latchKeys_DT (k : Word) : (s.latchKeys k).DT = s.DT := rfl
@[simp] theorem State.latchKeys_ST (k : Word) : (s.latchKeys k).ST = s.ST := rfl
@[simp] theorem State.latchKeys_keys (k : Word) : (s.latchKeys k).keys = k := rfl
@[simp] theorem State.latchKeys_fb (k : Word) : (s.latchKeys k).fb = s.fb := rfl
@[simp] theorem State.latchKeys_wait (k : Word) : (s.latchKeys k).wait = s.wait := rfl
@[simp] theorem State.latchKeys_lastTick (k : Word) : (s.latchKeys k).lastTick = s.lastTick := rfl
@[simp] theorem State.latchKeys_fault (k : Word) : (s.latchKeys k).fault = s.fault := rfl
@[simp] theorem State.latchKeys_loaded (k : Word) : (s.latchKeys k).loaded = s.loaded := rfl
@[simp] theorem State.latchKeys_prev (k : Word) : (s.latchKeys k).prev = s.keys := rfl
@[simp] theorem State.latchKeys_reply (k : Word) : (s.latchKeys k).reply = s.reply := rfl
@[simp] theorem State.latchKeys_draws (k : Word) : (s.latchKeys k).draws = s.draws := rfl
@[simp] theorem State.latchKeys_calls (k : Word) : (s.latchKeys k).calls = s.calls := rfl
@[simp] theorem State.latchKeys_cfg (k : Word) : (s.latchKeys k).cfg = s.cfg := rfl

/-! ### countDraw -/

@[simp] theorem State.countDraw_mem : s.countDraw.mem = s.mem := rfl
@[simp] theorem State.countDraw_V : s.countDraw.V = s.V := rfl
@[simp] theorem State.countDraw_I : s.countDraw.I = s.I := rfl
@[simp] theorem State.countDraw_pc : s.countDraw.pc = s.pc := rfl
@[simp] theorem State.countDraw_stack : s.countDraw.stack = s.stack := rfl
@[simp] theorem State.countDraw_sp : s.countDraw.sp = s.sp := rfl
@[simp] theorem State.countDraw_DT : s.countDraw.DT = s.DT := rfl
@[simp] theorem State.countDraw_ST : s.countDraw.ST = s.ST := rfl
@[simp] theorem State.countDraw_keys : s.countDraw.keys = s.keys := rfl
@[simp] theorem State.countDraw_fb : s.countDraw.fb = s.fb := rfl
@[simp] theorem State.countDraw_wait : s.countDraw.wait = s.wait := rfl
@[simp] theorem State.countDraw_lastTick : s.countDraw.lastTick = s.lastTick := rfl
@[simp] theorem State.countDraw_fault : s.countDraw.fault = s.fault := rfl
@[simp] theorem State.countDraw_loaded : s.countDraw.loaded = s.loaded := rfl
@[simp] theorem State.countDraw_prev : s.countDraw.prev = s.prev := rfl
@[simp] theorem State.countDraw_reply : s.countDraw.reply = s.reply := rfl
@[simp] theorem State.countDraw_draws : s.countDraw.draws = s.draws + 1 := rfl
@[simp] theorem State.countDraw_calls : s.countDraw.calls = s.calls := rfl
@[simp] theorem State.countDraw_cfg : s.countDraw.cfg = s.cfg := rfl

/-! ### decay -/

@[simp] theorem State.decay_mem (tick : Nat) : (s.decay tick).mem = s.mem := rfl
@[simp] theorem State.decay_V (tick : Nat) : (s.decay tick).V = s.V := rfl
@[simp] theorem State.decay_I (tick : Nat) : (s.decay tick).I = s.I := rfl
@[simp] theorem State.decay_pc (tick : Nat) : (s.decay tick).pc = s.pc := rfl
@[simp] theorem State.decay_stack (tick : Nat) : (s.decay tick).stack = s.stack := rfl
@[simp] theorem State.decay_sp (tick : Nat) : (s.decay tick).sp = s.sp := rfl
@[simp] theorem State.decay_DT (tick : Nat) : (s.decay tick).DT = decayed s.DT (s.tickDelta tick) := rfl
@[simp] theorem State.decay_ST (tick : Nat) : (s.decay tick).ST = decayed s.ST (s.tickDelta tick) := rfl
@[simp] theorem State.decay_keys (tick : Nat) : (s.decay tick).keys = s.keys := rfl
@[simp] theorem State.decay_fb (tick : Nat) : (s.decay tick).fb = s.fb := rfl
@[simp] theorem State.decay_wait (tick : Nat) : (s.decay tick).wait = s.wait := rfl
@[simp] theorem State.decay_lastTick (tick : Nat) : (s.decay tick).lastTick = some tick := rfl
@[simp] theorem State.decay_fault (tick : Nat) : (s.decay tick).fault = s.fault := rfl
@[simp] theorem State.decay_loaded (tick : Nat) : (s.decay tick).loaded = s.loaded := rfl
@[simp] theorem State.decay_prev (tick : Nat) : (s.decay tick).prev = s.prev := rfl
@[simp] theorem State.decay_reply (tick : Nat) : (s.decay tick).reply = s.reply := rfl
@[simp] theorem State.decay_draws (tick : Nat) : (s.decay tick).draws = s.draws := rfl
@[simp] theorem State.decay_calls (tick : Nat) : (s.decay tick).calls = s.calls := rfl
@[simp] theorem State.decay_cfg (tick : Nat) : (s.decay tick).cfg = s.cfg := rfl

/-! ### finish -/

@[simp] theorem State.finish_mem (tick : Nat) : (s.finish tick).mem = s.mem := rfl
@[simp] theorem State.finish_V (tick : Nat) : (s.finish tick).V = s.V := rfl
@[simp] theorem State.finish_I (tick : Nat) : (s.finish tick).I = s.I := rfl
@[simp] theorem State.finish_pc (tick : Nat) : (s.finish tick).pc = s.pc := rfl
@[simp] theorem State.finish_stack (tick : Nat) : (s.finish tick).stack = s.stack := rfl
@[simp] theorem State.finish_sp (tick : Nat) : (s.finish tick).sp = s.sp := rfl
@[simp] theorem State.finish_DT (tick : Nat) : (s.finish tick).DT = decayed s.DT (s.tickDelta tick) := rfl
@[simp] theorem State.finish_ST (tick : Nat) : (s.finish tick).ST = decayed s.ST (s.tickDelta tick) := rfl
@[simp] theorem State.finish_keys (tick : Nat) : (s.finish tick).keys = s.keys := rfl
@[simp] theorem State.finish_fb (tick : Nat) : (s.finish tick).fb = s.fb := rfl
@[simp] theorem State.finish_wait (tick : Nat) : (s.finish tick).wait = s.wait := rfl
@[simp] theorem State.finish_lastTick (tick : Nat) : (s.finish tick).lastTick = some tick := rfl
@[simp] theorem State.finish_fault (tick : Nat) : (s.finish tick).fault = s.fault := rfl
@[simp] theorem State.finish_loaded (tick : Nat) : (s.finish tick).loaded = s.loaded := rfl
@[simp] theorem State.finish_prev (tick : Nat) : (s.finish tick).prev = s.prev := rfl
@[simp] theorem State.finish_reply (tick : Nat) : (s.finish tick).reply = some (.ok s.soundOn) := rfl
@[simp] theorem State.finish_draws (tick : Nat) : (s.finish tick).draws = s.draws := rfl
@[simp] theorem State.finish_calls (tick : Nat) : (s.finish tick).calls = s.calls := rfl
@[simp] theorem State.finish_cfg (tick : Nat) : (s.finish tick).cfg = s.cfg := rfl

/-! ### takeFault -/

@[simp] theorem State.takeFault_mem (f : Fault) : (s.takeFault f).mem = s.mem := rfl
@[simp] theorem State.takeFault_V (f : Fault) : (s.takeFault f).V = s.V := rfl
@[simp] theorem State.takeFault_I (f : Fault) : (s.takeFault f).I = s.I := rfl
@[simp] theorem State.takeFault_pc (f : Fault) : (s.takeFault f).pc = s.pc := rfl
@[simp] theorem State.takeFault_stack (f : Fault) : (s.takeFault f).stack = s.stack := rfl
@[simp] theorem State.takeFault_sp (f : Fault) : (s.takeFault f).sp = s.sp := rfl
@[simp] theorem State.takeFault_DT (f : Fault) : (s.takeFault f).DT = s.DT := rfl
@[simp] theorem State.takeFault_ST (f : Fault) : (s.takeFault f).ST = s.ST := rfl
@[simp] theorem State.takeFault_keys (f : Fault) : (s.takeFault f).keys = s.keys := rfl
@[simp] theorem State.takeFault_fb (f : Fault) : (s.takeFault f).fb = s.fb := rfl
@[simp] theorem State.takeFault_wait (f : Fault) : (s.takeFault f).wait = s.wait := rfl
@[simp] theorem State.takeFault_lastTick (f : Fault) : (s.takeFault f).lastTick = s.lastTick := rfl
@[simp] theorem State.takeFault_fault (f : Fault) : (s.takeFault f).fault = some f.kind := rfl
@[simp] theorem State.takeFault_loaded (f : Fault) : (s.takeFault f).loaded = s.loaded := rfl
@[simp] theorem State.takeFault_prev (f : Fault) : (s.takeFault f).prev = s.prev := rfl
@[simp] theorem State.takeFault_reply (f : Fault) : (s.takeFault f).reply = some (.err f) := rfl
@[simp] theorem State.takeFault_draws (f : Fault) : (s.takeFault f).draws = s.draws := rfl
@[simp] theorem State.takeFault_calls (f : Fault) : (s.takeFault f).calls = s.calls := rfl
@[simp] theorem State.takeFault_cfg (f : Fault) : (s.takeFault f).cfg = s.cfg := rfl

/-! ### popCall -/

@[simp] theorem State.popCall_mem : s.popCall.mem = s.mem := rfl
@[simp] theorem State.popCall_V : s.popCall.V = s.V := rfl
@[simp] theorem State.popCall_I : s.popCall.I = s.I := rfl
@[simp] theorem State.popCall_pc : s.popCall.pc = s.pc := rfl
@[simp] theorem State.popCall_stack : s.popCall.stack = s.stack := rfl
@[simp] theorem State.popCall_sp : s.popCall.sp = s.sp := rfl
@[simp] theorem State.popCall_DT : s.popCall.DT = s.DT := rfl
@[simp] theorem State.popCall_ST : s.popCall.ST = s.ST := rfl
@[simp] theorem State.popCall_keys : s.popCall.keys = s.keys := rfl
@[simp] theorem State.popCall_fb : s.popCall.fb = s.fb := rfl
@[simp] theorem State.popCall_wait : s.popCall.wait = s.wait := rfl
@[simp] theorem State.popCall_lastTick : s.popCall.lastTick = s.lastTick := rfl
@[simp] theorem State.popCall_fault : s.popCall.fault = s.fault := rfl
@[simp] theorem State.popCall_loaded : s.popCall.loaded = s.loaded := rfl
@[simp] theorem State.popCall_prev : s.popCall.prev = s.prev := rfl
@[simp] theorem State.popCall_reply : s.popCall.reply = s.reply := rfl
@[simp] theorem State.popCall_draws : s.popCall.draws = s.draws := rfl
@[simp] theorem State.popCall_calls : s.popCall.calls = s.calls.tail := rfl
@[simp] theorem State.popCall_cfg : s.popCall.cfg = s.cfg := rfl

/-! ### Compound updates, in terms of the ones above -/

/-- A skip, field by field but for pc. -/
theorem State.skipIf_eq (b : Bool) : s.skipIf b = { s with pc := if b then maskPc (s.pc + 2) else s.pc } := by
  cases b <;> rfl

theorem State.setResultFlag_eq (x : Reg) (r f : Byte) :
    s.setResultFlag x r f = { s with V := (s.V.set x.toNat r x.isLt).set flagReg.toNat f flagReg.isLt } := rfl

theorem State.indexPast_eq (x : Reg) : s.indexPast x = { s with I := s.I + BitVec.ofNat 16 (x.toNat + 1) } := rfl

end Sys2Proof.Machine
end

