-- ==== Sys2Proof/Laws/Ops.lean ====
section
/-!
SUPPORT. One lemma per shared operation that says what it can do; later proofs cite these and do not unfold.
-/

namespace Sys2Proof.Machine

variable {s t : State}

/-! ## Registers -/

/-- A register read after a register write (R13, R32). -/
theorem reg_setReg (s : State) (x r : Reg) (v : Byte) : (s.setReg x v).reg r = if r = x then v else s.reg r := by
  simp only [State.reg, State.setReg, Vector.getElem_set]
  by_cases h : r = x
  · simp [h]
  · have : x.toNat ≠ r.toNat := fun e => h (BitVec.eq_of_toNat_eq e.symm)
    simp [h, this]

@[simp] theorem reg_setReg_same (s : State) (x : Reg) (v : Byte) : (s.setReg x v).reg x = v := by
  simp [reg_setReg]

/-- Registers depend on the field V alone. -/
theorem reg_congr (h : t.V = s.V) (r : Reg) : t.reg r = s.reg r := by simp [State.reg, h]

/-- The result and the flag of a family-8 instruction (R199). -/
theorem reg_setResultFlag (s : State) (x r : Reg) (v f : Byte) :
    (s.setResultFlag x v f).reg r = if r = 15#4 then f else if r = x then v else s.reg r := by
  simp [State.setResultFlag, reg_setReg, flagReg]

/-- A register write changes nothing but that register. -/
theorem regsOnly_setReg (s : State) (x : Reg) (v : Byte) : RegsOnly [x] s (s.setReg x v) :=
  ⟨rfl, fun r hr => by simp_all [reg_setReg]⟩

/-- A result-and-flag write changes nothing but its register and VF. -/
theorem regsOnly_setResultFlag (s : State) (x : Reg) (v f : Byte) :
    RegsOnly [x, 15#4] s (s.setResultFlag x v f) :=
  ⟨rfl, fun r hr => by simp_all [reg_setResultFlag]⟩

/-- The register file of FX65, register by register (R195). -/
theorem getElem_loadInto (m : Memory) (base count : Nat) (v : Vector Byte 16) {r : Nat} (hr : r < 16) :
    (loadInto m base count v)[r] = if r < count then Memory.read m ((base + r) % 4096) else v[r] := by
  induction count with
  | zero => simp [loadInto]
  | succ k ih =>
    rw [loadInto, Vector.getElem_setIfInBounds hr, ih]
    by_cases h : k = r
    · simp [h]
    · by_cases hlt : r < k
      · rw [if_neg h, if_pos hlt, if_pos (by omega)]
      · rw [if_neg h, if_neg hlt, if_neg (by omega)]

/-- The registers of FX65: the first `count` of them are loaded, the others keep their values (R195). -/
theorem reg_loadRegs (s : State) (base count : Nat) (r : Reg) :
    (s.loadRegs base count).reg r = if r.toNat < count then s.load8 (base + r.toNat) else s.reg r :=
  getElem_loadInto s.mem base count s.V r.isLt

/-- V0 to Vx are x + 1 bytes (R103). -/
theorem regsUpTo_length (s : State) (x : Reg) : (s.regsUpTo x).length = x.toNat + 1 := by
  have := x.isLt
  simp [State.regsUpTo]
  omega

/-- Byte k of V0 to Vx is Vk. -/
theorem regsUpTo_getElem (s : State) (x k : Reg) (h : k.toNat < (s.regsUpTo x).length) :
    (s.regsUpTo x)[k.toNat] = s.reg k := by
  simp [State.regsUpTo, State.reg]

/-- The index register after a block transfer (R194, R195). -/
theorem indexPast_toNat (s : State) (x : Reg) : (s.indexPast x).I.toNat = (s.I.toNat + x.toNat + 1) % 65536 := by
  have := x.isLt
  simp [State.indexPast, BitVec.toNat_add]
  omega

/-! ## Program counter -/

@[simp] theorem maskPc_toNat (v : Word) : (maskPc v).toNat = v.toNat % 4096 := by
  simp only [maskPc, BitVec.toNat_setWidth]
  omega

theorem maskPc_lt (v : Word) : (maskPc v).toNat < 4096 := by simp; omega

/-- A value below 4096 is kept. -/
theorem maskPc_of_lt {v : Word} (h : v.toNat < 4096) : maskPc v = v := by
  apply BitVec.eq_of_toNat_eq; simp; omega

theorem advance_pc_toNat (s : State) : s.advance.pc.toNat = (s.pc.toNat + 2) % 4096 := by
  simp [BitVec.toNat_add]

/-- A conditional skip: pc alone moves, by 2 mod 4096, and only if it is taken (R144). -/
theorem skipIf_spec (s : State) (taken : Bool) :
    PcOnly s (s.skipIf taken) ∧ (taken = true → (s.skipIf taken).pc.toNat = (s.pc.toNat + 2) % 4096) ∧
      (taken = false → (s.skipIf taken).pc = s.pc) := by
  cases taken
  · exact ⟨rfl, by simp, fun _ => rfl⟩
  · exact ⟨rfl, fun _ => advance_pc_toNat s, by simp⟩

/-- The address of the instruction being executed, from the pc after its fetch (R35). -/
theorem instrAddr_toNat (s : State) : s.instrAddr.toNat = (s.pc.toNat + 65534) % 4096 := by
  simp [State.instrAddr, BitVec.toNat_sub]
  omega

/-! ## Memory -/

/-- What an instruction reads after a run of stores (R75, R77). -/
theorem load8_storeBytes (hs : Memory.wf s.mem = true) {a b : Nat} {bs : List Byte} (hl : bs.length ≤ 4096) :
    (s.storeBytes a bs).load8 b =
      if hk : (b % 4096 + 4096 - a % 4096) % 4096 < bs.length then bs[(b % 4096 + 4096 - a % 4096) % 4096]
      else s.load8 b := by
  simp only [State.load8, State.storeBytes_mem]
  exact Memory.read_writeBytes hs hl (Nat.mod_lt _ (by omega))

/-! ## Stack -/

/-- A push that has room (R150). -/
theorem push_of_lt (s : State) (v : Addr) (h : s.sp.val < 16) :
    s.push v = some { s with stack := s.stack.set s.sp.val v h, sp := ⟨s.sp.val + 1, by omega⟩ } := by
  simp [State.push, h]

/-- A push on a full stack (R150). -/
theorem push_of_full (s : State) (v : Addr) (h : s.sp.val = 16) : s.push v = none := by
  simp [State.push, h]

/-- A pop of a live entry (R151). -/
theorem pop_of_pos (s : State) (h : 0 < s.sp.val) :
    s.pop = some (s.stack[s.sp.val - 1]'(by have := s.sp.isLt; omega), { s with sp := ⟨s.sp.val - 1, by omega⟩ }) := by
  simp [State.pop, h]

/-- A pop of an empty stack (R151). -/
theorem pop_of_empty (s : State) (h : s.sp.val = 0) : s.pop = none := by
  simp [State.pop, h]

/-! ## Keys -/

/-- The lowest key of a mask: set, and none below it is (R262). -/
theorem lowestKey_eq_some {m : Word} {k : Nat} :
    lowestKey m = some k ↔ k < 16 ∧ m.getLsbD k = true ∧ ∀ j < k, m.getLsbD j = false := by
  rw [lowestKey, List.find?_range_eq_some]
  simp
  tauto

/-- No key of a mask. -/
theorem lowestKey_eq_none {m : Word} : lowestKey m = none ↔ m = 0 := by
  rw [lowestKey, List.find?_eq_none]
  constructor
  · intro h
    apply BitVec.eq_of_getLsbD_eq
    intro i hi
    have := h i (List.mem_range.2 hi)
    simpa using this
  · rintro rfl; simp

/-- The key that FX0A and the wait phase store is the lowest new one (R262, R263). -/
theorem lowestKey_newKeys (s : State) (k : Nat) : lowestKey s.newKeys = some k ↔ LowestNew s.prev s.keys k := by
  rw [lowestKey_eq_some]
  have hbit : ∀ j, j < 16 → (s.newKeys.getLsbD j = true ↔ s.keys.getLsbD j = true ∧ s.prev.getLsbD j = false) := by
    intro j hj; simp [State.newKeys, hj]
  constructor
  · rintro ⟨h1, h2, h3⟩
    refine ⟨h1, ((hbit k h1).1 h2).1, ((hbit k h1).1 h2).2, fun j hj hn => ?_⟩
    rw [← hbit j (by omega), h3 j hj] at hn
    cases hn
  · rintro ⟨h1, h2, h3, h4⟩
    refine ⟨h1, (hbit k h1).2 ⟨h2, h3⟩, fun j hj => ?_⟩
    have := mt (hbit j (by omega)).1 (h4 j hj)
    simpa using this

/-! ## Timers -/

/-- A timer after d ticks, as a number (R320). -/
@[simp] theorem decayed_toNat (v : Byte) (d : Nat) : (decayed v d).toNat = v.toNat - min v.toNat d := by
  have := v.isLt
  simp only [decayed, BitVec.toNat_ofNat]
  omega

@[simp] theorem decayed_zero (v : Byte) : decayed v 0 = v := by
  apply BitVec.eq_of_toNat_eq; simp

/-! ## Flags -/

@[simp] theorem flagByte_toNat (b : Bool) : (flagByte b).toNat = b.toNat := by cases b <;> rfl

end Sys2Proof.Machine
end

