-- ==== Sys2Proof/Laws/Drawing.lean ====
section
/-!
SUPPORT. What the drawing folds do, cell by cell (spec/42_drawing.md R241 to R243): the framebuffer is inverted exactly
where the sprite has a bit, and the hit is set exactly when such a cell was lit.
-/

namespace Sys2Proof.Machine

/-- Inverting a cell changes that cell alone. -/
theorem cell_toggleCell (fb : Framebuffer) {row col : Nat} (hr : row < 32) (hc : col < 64) (r c : Nat) :
    cell (toggleCell fb row col) r c = (cell fb r c ^^ (decide (r = row) && decide (c = col))) := by
  by_cases h : r = row
  · subst h
    simp [cell, toggleCell, hr, BitVec.getLsbD_xor, BitVec.getLsbD_twoPow, hc, eq_comm]
  · have h' : row ≠ r := fun e => h e.symm
    simp [cell, toggleCell, h, h']

/-- The bit of a sprite byte that falls on column `col`, for the first m pixels from column x0. -/
def byteBit (b : Byte) (x0 m col : Nat) : Bool :=
  decide ((col + 64 - x0) % 64 < m) && b.getLsbD (7 - (col + 64 - x0) % 64)

/-- The first m pixels of a sprite byte. -/
theorem plots_spec (c : Canvas) {row x0 : Nat} (hr : row < 32) (hx : x0 < 64) (b : Byte) {m : Nat} (hm : m ≤ 8) :
    let d := (List.range m).foldl (fun c k => if b.getLsbD (7 - k) then plot c row ((x0 + k) % 64) else c) c
    (∀ r col, col < 64 → cell d.1 r col = (cell c.1 r col ^^ (decide (r = row) && byteBit b x0 m col))) ∧
    (d.2 = true ↔ c.2 = true ∨ ∃ col, col < 64 ∧ byteBit b x0 m col = true ∧ cell c.1 row col = true) := by
  induction m with
  | zero => simp [byteBit]
  | succ k ih =>
    obtain ⟨ihc, ihh⟩ := ih (by omega)
    simp only [List.range_succ, List.foldl_append, List.foldl_cons, List.foldl_nil]
    generalize (List.range k).foldl (fun c k => if b.getLsbD (7 - k) then plot c row ((x0 + k) % 64) else c) c = d
      at ihc ihh ⊢
    have hcol : (x0 + k) % 64 < 64 := Nat.mod_lt _ (by omega)
    have hdist : ∀ col, col < 64 → ((col + 64 - x0) % 64 = k ↔ col = (x0 + k) % 64) := by
      intro col hc; omega
    have hsplit : ∀ col, col < 64 →
        byteBit b x0 (k + 1) col = (byteBit b x0 k col || (decide (col = (x0 + k) % 64) && b.getLsbD (7 - k))) := by
      intro col hc
      by_cases he : (col + 64 - x0) % 64 = k
      · have := (hdist col hc).1 he
        simp only [byteBit, he]
        simp [this]
      · have h1 : ¬ col = (x0 + k) % 64 := fun e => he ((hdist col hc).2 e)
        have h2 : ((col + 64 - x0) % 64 < k + 1) ↔ ((col + 64 - x0) % 64 < k) := by omega
        simp [byteBit, h1, h2]
    have hnot : byteBit b x0 k ((x0 + k) % 64) = false := by
      have := (hdist _ hcol).2 rfl
      simp [byteBit, this]
    by_cases hb : b.getLsbD (7 - k) = true
    · simp only [hb, if_true, plot, Bool.or_eq_true]
      refine ⟨fun r col hc => ?_, ?_⟩
      · rw [cell_toggleCell _ hr hcol, ihc r col hc, hsplit col hc, hb]
        by_cases h1 : r = row <;> by_cases h2 : col = (x0 + k) % 64
        · subst h2; simp [h1, hnot]
        all_goals simp [h1, h2]
      · rw [ihh, ihc row _ hcol, hnot]
        constructor
        · rintro ((h | ⟨col, hc, hbit, hl⟩) | h)
          · exact .inl h
          · exact .inr ⟨col, hc, by simp [hsplit col hc, hbit], hl⟩
          · exact .inr ⟨_, hcol, by simp [hsplit _ hcol, hb], by simpa using h⟩
        · rintro (h | ⟨col, hc, hbit, hl⟩)
          · exact .inl (.inl h)
          · rw [hsplit col hc] at hbit
            rcases Bool.or_eq_true _ _ ▸ hbit with h | h
            · exact .inl (.inr ⟨col, hc, h, hl⟩)
            · have : col = (x0 + k) % 64 := of_decide_eq_true (Bool.and_eq_true _ _ ▸ h : _ ∧ _).1
              subst this
              exact .inr (by simpa using hl)
    · have hb' : b.getLsbD (7 - k) = false := by simpa using hb
      simp only [hb', Bool.false_eq_true, if_false]
      have hsame : ∀ col, col < 64 → byteBit b x0 (k + 1) col = byteBit b x0 k col := by
        intro col hc; simp [hsplit col hc, hb']
      refine ⟨fun r col hc => by rw [ihc r col hc, hsame col hc], ?_⟩
      rw [ihh]
      constructor <;> rintro (h | ⟨col, hc, hbit, hl⟩)
      · exact .inl h
      · exact .inr ⟨col, hc, by rw [hsame col hc]; exact hbit, hl⟩
      · exact .inl h
      · exact .inr ⟨col, hc, by rw [← hsame col hc]; exact hbit, hl⟩

/-- A sprite byte in one row (R241). -/
theorem drawByte_spec (c : Canvas) {row x0 : Nat} (hr : row < 32) (hx : x0 < 64) (b : Byte) :
    (∀ r col, col < 64 →
      cell (drawByte c row x0 b).1 r col = (cell c.1 r col ^^ (decide (r = row) && byteBit b x0 8 col))) ∧
    ((drawByte c row x0 b).2 = true ↔
      c.2 = true ∨ ∃ col, col < 64 ∧ byteBit b x0 8 col = true ∧ cell c.1 row col = true) :=
  plots_spec c hr hx b (Nat.le_refl 8)

/-- The bit of the first m sprite rows that falls on the cell (row, col). -/
def State.rowsBit (s : State) (x0 y0 m row col : Nat) : Bool :=
  decide ((row + 32 - y0) % 32 < m) && (s.cfg.drawWrapVertical || decide (y0 + (row + 32 - y0) % 32 < 32)) &&
    byteBit (s.indexed ((row + 32 - y0) % 32)) x0 8 col

/-- Where sprite row r goes: a visible row at distance r below the anchor, or nowhere (R242). -/
theorem spriteRow_spec {wrap : Bool} {y0 r : Nat} (hy : y0 < 32) (hr : r < 32) :
    (∀ row, spriteRow wrap y0 r = some row → row < 32 ∧ (row + 32 - y0) % 32 = r ∧ (wrap || decide (y0 + r < 32)) = true) ∧
    (spriteRow wrap y0 r = none → (wrap || decide (y0 + r < 32)) = false) := by
  unfold spriteRow
  split
  next h =>
    refine ⟨fun row e => ?_, by simp⟩
    obtain rfl := Option.some.inj e
    exact ⟨h, by omega, by simp [h]⟩
  next h =>
    cases wrap
    · exact ⟨by simp, by simp [h]⟩
    · refine ⟨fun row e => ?_, by simp⟩
      obtain rfl := Option.some.inj e
      exact ⟨Nat.mod_lt _ (by omega), by omega, rfl⟩

/-- The first m sprite rows. -/
theorem rows_spec (s : State) {x0 y0 m : Nat} (hx : x0 < 64) (hy : y0 < 32) (hm : m ≤ 32) :
    let d := (List.range m).foldl (s.drawRow x0 y0) (s.fb, false)
    (∀ row col, row < 32 → col < 64 → cell d.1 row col = (cell s.fb row col ^^ s.rowsBit x0 y0 m row col)) ∧
    (d.2 = true ↔
      ∃ row col, row < 32 ∧ col < 64 ∧ s.rowsBit x0 y0 m row col = true ∧ cell s.fb row col = true) := by
  induction m with
  | zero => simp [State.rowsBit]
  | succ k ih =>
    obtain ⟨ihc, ihh⟩ := ih (by omega)
    simp only [List.range_succ, List.foldl_append, List.foldl_cons, List.foldl_nil]
    generalize (List.range k).foldl (s.drawRow x0 y0) (s.fb, false) = d at ihc ihh ⊢
    obtain ⟨hsome, hnone⟩ := spriteRow_spec (wrap := s.cfg.drawWrapVertical) hy (show k < 32 by omega)
    unfold State.drawRow
    split
    next target e =>
      obtain ⟨ht, hdist, hvis⟩ := hsome target e
      have hrow : ∀ row, row < 32 → ((row + 32 - y0) % 32 = k ↔ row = target) := by
        intro row h; omega
      have hsplit : ∀ row col, row < 32 → s.rowsBit x0 y0 (k + 1) row col =
          (s.rowsBit x0 y0 k row col || (decide (row = target) && byteBit (s.indexed k) x0 8 col)) := by
        intro row col h
        by_cases hk : (row + 32 - y0) % 32 = k
        · have := (hrow row h).1 hk
          simp only [State.rowsBit, hk, hvis]
          simp [this]
        · have h1 : ¬ row = target := fun he => hk ((hrow row h).2 he)
          have h2 : ((row + 32 - y0) % 32 < k + 1) ↔ ((row + 32 - y0) % 32 < k) := by omega
          simp [State.rowsBit, h1, h2]
      have hnot : ∀ col, s.rowsBit x0 y0 k target col = false := by
        intro col; simp [State.rowsBit, hdist]
      obtain ⟨hcells, hhit⟩ := drawByte_spec d ht hx (s.indexed k)
      refine ⟨fun row col h hc => ?_, ?_⟩
      · rw [hcells row col hc, ihc row col h hc, hsplit row col h]
        by_cases he : row = target
        · subst he; simp [hnot]
        · simp [he]
      · rw [hhit, ihh]
        constructor
        · rintro (⟨row, col, h, hc, hb, hl⟩ | ⟨col, hc, hb, hl⟩)
          · exact ⟨row, col, h, hc, by simp [hsplit row col h, hb], hl⟩
          · exact ⟨target, col, ht, hc, by simp [hsplit target col ht, hb], by
              rw [ihc target col ht hc, hnot] at hl; simpa using hl⟩
        · rintro ⟨row, col, h, hc, hb, hl⟩
          rw [hsplit row col h] at hb
          rcases Bool.or_eq_true _ _ ▸ hb with h1 | h1
          · exact .inl ⟨row, col, h, hc, h1, hl⟩
          · obtain ⟨h2, h3⟩ := (Bool.and_eq_true _ _ ▸ h1 : _ ∧ _)
            have : row = target := by simpa using h2
            subst this
            exact .inr ⟨col, hc, h3, by rw [ihc row col h hc, hnot]; simpa using hl⟩
    next e =>
      have hvis := hnone e
      have hsame : ∀ row col, s.rowsBit x0 y0 (k + 1) row col = s.rowsBit x0 y0 k row col := by
        intro row col
        by_cases hk : (row + 32 - y0) % 32 = k
        · simp only [State.rowsBit, hk, hvis]; simp
        · have h2 : ((row + 32 - y0) % 32 < k + 1) ↔ ((row + 32 - y0) % 32 < k) := by omega
          simp [State.rowsBit, h2]
      simp only [hsame]
      exact ⟨ihc, ihh⟩

/-- The bit that DRW puts on a cell, by the closed form that the statements use. -/
theorem rowsBit_eq_spriteBit (s : State) (x y : Reg) (n : BitVec 4) (row col : Nat) :
    s.rowsBit (anchorCol (s.reg x)) (anchorRow (s.reg y)) n.toNat row col = s.spriteBit x y n row col := by
  simp only [State.rowsBit, State.spriteBit, byteBit, anchorCol, anchorRow, State.indexed, Bool.and_assoc]
  rfl

/-- DRW's whole effect on the framebuffer and on the hit (R241, R243). -/
theorem drawSprite_spec (s : State) (x y : Reg) (n : BitVec 4) :
    let d := s.drawSprite (anchorCol (s.reg x)) (anchorRow (s.reg y)) n.toNat
    (∀ row col, row < 32 → col < 64 → cell d.1 row col = (cell s.fb row col ^^ s.spriteBit x y n row col)) ∧
    (d.2 = true ↔
      ∃ row col, row < 32 ∧ col < 64 ∧ s.spriteBit x y n row col = true ∧ cell s.fb row col = true) := by
  have := rows_spec s (x0 := anchorCol (s.reg x)) (y0 := anchorRow (s.reg y)) (m := n.toNat)
    (Nat.mod_lt _ (by omega)) (Nat.mod_lt _ (by omega)) (by have := n.isLt; omega)
  simpa only [rowsBit_eq_spriteBit, State.drawSprite] using this

end Sys2Proof.Machine
end

