-- ==== Sys2Proof/Laws/Step.lean ====
section
/-!
SUPPORT. What a step can do, said once: `exec` never refuses and faults only in CALL and RET; a step that goes on ends
either in a finished instruction (or wait phase) or in a taken fault.
-/

namespace Sys2Proof.Machine

/-- Only CALL on a full stack and RET on an empty one fault; every other instruction answers a next state. -/
theorem exec_cases (i : Instr) (s : State) :
    (∃ t, exec i s = .next t) ∨
    (∃ nnn, i = .call nnn ∧ s.sp.val = 16 ∧ exec i s = .fault (.stackOverflow s.instrAddr)) ∨
    (i = .ret ∧ s.sp.val = 0 ∧ exec i s = .fault (.stackUnderflow s.instrAddr)) := by
  cases i with
  | call nnn =>
    by_cases h : s.sp.val < 16
    · exact .inl ⟨_, by simp [exec, execCall, push_of_lt s _ h]; rfl⟩
    · have : s.sp.val = 16 := by have := s.sp.isLt; omega
      exact .inr (.inl ⟨nnn, rfl, this, by simp [exec, execCall, push_of_full s _ this]⟩)
  | ret =>
    by_cases h : s.sp.val = 0
    · exact .inr (.inr ⟨rfl, h, by simp [exec, execRet, pop_of_empty s h]⟩)
    · exact .inl ⟨_, by simp [exec, execRet, pop_of_pos s (Nat.pos_of_ne_zero h)]; rfl⟩
  | _ => exact .inl ⟨_, rfl⟩

theorem exec_not_refused (i : Instr) (s : State) (r : Refusal) : exec i s ≠ .refused r := by
  rcases exec_cases i s with ⟨t, h⟩ | ⟨_, _, _, h⟩ | ⟨_, _, h⟩ <;> simp [h]

theorem runInstr_not_refused (s : State) (r : Refusal) : s.runInstr ≠ .refused r := by
  unfold State.runInstr
  split
  · simp
  · exact exec_not_refused _ _ r

theorem phase3_not_refused (s : State) (r : Refusal) : s.phase3 ≠ .refused r := by
  unfold State.phase3
  split
  · simp
  · exact runInstr_not_refused _ r

/-- Once the guard has let a call through, the step goes on: it finishes, or it takes a fault (R141, R305). -/
theorem runStep_cases (s : State) (k : Word) (tick : Nat) :
    (∃ t, (s.latchKeys k).phase3 = .next t ∧ s.runStep k tick = .next (t.finish tick)) ∨
    (∃ f, (s.latchKeys k).phase3 = .fault f ∧ s.runStep k tick = .next (s.takeFault f)) := by
  unfold State.runStep
  split
  next t h => exact .inl ⟨t, h, rfl⟩
  next f h => exact .inr ⟨f, h, rfl⟩
  next r h => exact absurd h (phase3_not_refused _ r)

/-- The guard's four answers (R141): refused while unloaded, the latched fault, refused for a regressing tick, or
the phases of the step. -/
theorem stepWith_cases (a : StepArgs) (s : State) :
    (s.loaded = false ∧ stepWith a s = .refused .unloaded) ∨
    (s.loaded = true ∧ ∃ k, s.fault = some k ∧ stepWith a s = .fault (.latched k)) ∨
    (s.loaded = true ∧ s.fault = none ∧ s.tickRegresses (s.tickOf a) = true ∧ stepWith a s = .refused .tickRegression) ∨
    (s.loaded = true ∧ s.fault = none ∧ s.tickRegresses (s.tickOf a) = false ∧
      stepWith a s = s.runStep a.keys (s.tickOf a)) := by
  unfold stepWith
  cases hl : s.loaded
  · exact .inl ⟨rfl, rfl⟩
  · cases hf : s.fault with
    | some k => exact .inr (.inl ⟨rfl, k, rfl, rfl⟩)
    | none =>
      cases ht : s.tickRegresses (s.tickOf a)
      · exact .inr (.inr (.inr ⟨rfl, rfl, rfl, by simp⟩))
      · exact .inr (.inr (.inl ⟨rfl, rfl, rfl, by simp⟩))

@[simp] theorem popCall_tickOf (s : State) (a : StepArgs) : s.popCall.tickOf a = s.tickOf a := rfl

@[simp] theorem popCall_tickRegresses (s : State) (n : Nat) : s.popCall.tickRegresses n = s.tickRegresses n := rfl

/-- A step that the guard lets through. -/
theorem step_of_accepts {s : State} (h : Accepts s) :
    step s = s.popCall.runStep s.nextArgs.keys (s.tickOf s.nextArgs) := by
  obtain ⟨h1, h2, h3⟩ := h
  rcases stepWith_cases s.nextArgs s.popCall with h | h | h | h <;> simp_all [step]

/-- A step that answers a next state was let through by the guard. -/
theorem accepts_of_step_next {s t : State} (h : step s = .next t) : Accepts s := by
  rcases stepWith_cases s.nextArgs s.popCall with h' | h' | h' | h' <;> simp_all [step, Accepts]

/-- Every next state of a step, with the phase it came from (R141). -/
theorem step_next_cases {s t : State} (h : step s = .next t) :
    (∃ u, (s.popCall.latchKeys s.nextArgs.keys).phase3 = .next u ∧ t = u.finish (s.tickOf s.nextArgs)) ∨
    (∃ f, (s.popCall.latchKeys s.nextArgs.keys).phase3 = .fault f ∧ t = s.popCall.takeFault f) := by
  rw [step_of_accepts (accepts_of_step_next h)] at h
  rcases runStep_cases s.popCall s.nextArgs.keys (s.tickOf s.nextArgs) with ⟨u, h1, h2⟩ | ⟨f, h1, h2⟩
  · exact .inl ⟨u, h1, by rw [h2] at h; injection h with h; exact h.symm⟩
  · exact .inr ⟨f, h1, by rw [h2] at h; injection h with h; exact h.symm⟩

/-- Every next state of phase 3: a wait phase, or an instruction executed past its fetch. -/
theorem phase3_next_cases {s u : State} (h : s.phase3 = .next u) :
    (∃ r, s.wait = some r ∧ u = s.waitPhase r) ∨
    (∃ i, s.wait = none ∧ s.fetch = .ok i ∧ exec i s.advance = .next u) := by
  unfold State.phase3 at h
  split at h
  next r hr => exact .inl ⟨r, hr, by injection h with h; exact h.symm⟩
  next hw =>
    unfold State.runInstr at h
    split at h
    · cases h
    next i hi => exact .inr ⟨i, hw, hi, h⟩

/-- A fetch that gives an instruction: an even pc and a word that decodes to it. -/
theorem fetch_eq_ok {s : State} {i : Instr} : s.fetch = .ok i ↔ s.pc.toNat % 2 = 0 ∧ decode s.fetchWord = .ok i := by
  unfold State.fetch
  split
  next h => simp; omega
  next h =>
    have h0 : s.pc.toNat % 2 = 0 := by omega
    split
    next j hj => simp [hj, h0]
    next e he => simp [he]

/-- The state after the input latch and the advance is the one the statements name. -/
theorem entered_eq (s : State) : (s.popCall.latchKeys s.nextArgs.keys).advance = s.entered := by
  have : maskPc (s.pc + 2) = BitVec.ofNat 16 ((s.pc.toNat + 2) % 4096) := by
    apply BitVec.eq_of_toNat_eq
    simp [BitVec.toNat_add]
    omega
  simp only [State.entered, State.advance, State.setPc, State.latchKeys, State.popCall, this]

end Sys2Proof.Machine
end

