-- ==== Sys2Proof/Laws/Frame.lean ====
section
/-!
SUPPORT. What an instruction leaves unchanged, for all instructions at once: the fields no instruction writes, and for
each written field the instructions that may write it.
-/

namespace Sys2Proof.Machine

variable {i : Instr} {s t : State}

/-- A call that goes on: the pushed stack, then the jump (R150). -/
theorem execCall_next {nnn : Addr} (h : execCall nnn s = .next t) :
    ∃ hlt : s.sp.val < 16,
      t = { s with stack := s.stack.set s.sp.val (s.pc.setWidth 12) hlt, sp := ⟨s.sp.val + 1, by omega⟩,
                   pc := maskPc (addrWord nnn) } := by
  unfold execCall State.push at h
  split at h
  next u hu =>
    split at hu
    next hlt => injection hu with hu; injection h with h; subst hu; exact ⟨hlt, h.symm⟩
    next => cases hu
  next => cases h

/-- A return that goes on: the top entry is the new pc, the slots stay (R151). -/
theorem execRet_next (h : execRet s = .next t) :
    ∃ hp : 0 < s.sp.val,
      t = { s with sp := ⟨s.sp.val - 1, by omega⟩,
                   pc := maskPc (addrWord (s.stack[s.sp.val - 1]'(by have := s.sp.isLt; omega))) } := by
  unfold execRet State.pop at h
  split at h
  next a u hu =>
    split at hu
    next hp => injection hu with hu; injection h with h; injection hu with h1 h2; subst h1 h2; exact ⟨hp, h.symm⟩
    next => cases hu
  next => cases h

/-- The fields that no instruction writes. -/
theorem exec_unwritten (h : exec i s = .next t) :
    t.keys = s.keys ∧ t.prev = s.prev ∧ t.lastTick = s.lastTick ∧ t.fault = s.fault ∧ t.loaded = s.loaded ∧
      t.reply = s.reply ∧ t.calls = s.calls ∧ t.cfg = s.cfg := by
  cases i with
  | call nnn => obtain ⟨_, rfl⟩ := execCall_next h; exact ⟨rfl, rfl, rfl, rfl, rfl, rfl, rfl, rfl⟩
  | ret => obtain ⟨_, rfl⟩ := execRet_next h; exact ⟨rfl, rfl, rfl, rfl, rfl, rfl, rfl, rfl⟩
  | seImm | sneImm | seReg | sneReg | skp | sknp =>
    injection h with h; subst h; simp only [State.skipIf]; split <;> exact ⟨rfl, rfl, rfl, rfl, rfl, rfl, rfl, rfl⟩
  | ldVxK => injection h with h; subst h; split <;> exact ⟨rfl, rfl, rfl, rfl, rfl, rfl, rfl, rfl⟩
  | _ => injection h with h; subst h; exact ⟨rfl, rfl, rfl, rfl, rfl, rfl, rfl, rfl⟩

/-- Memory is written by FX55 and FX33 alone, and they keep its canonical form. -/
theorem exec_mem (h : exec i s = .next t) :
    t.mem = s.mem ∨
      ((∃ x, i = .ldMemVx x ∨ i = .ldBVx x) ∧ (Memory.wf s.mem = true → Memory.wf t.mem = true)) := by
  cases i with
  | call nnn => obtain ⟨_, rfl⟩ := execCall_next h; exact .inl rfl
  | ret => obtain ⟨_, rfl⟩ := execRet_next h; exact .inl rfl
  | ldMemVx x => injection h with h; subst h; exact .inr ⟨⟨x, .inl rfl⟩, fun hw => Memory.wf_writeBytes hw _ _⟩
  | ldBVx x => injection h with h; subst h; exact .inr ⟨⟨x, .inr rfl⟩, fun hw => Memory.wf_writeBytes hw _ _⟩
  | seImm | sneImm | seReg | sneReg | skp | sknp =>
    injection h with h; subst h; left; simp only [State.skipIf]; split <;> rfl
  | ldVxK => injection h with h; subst h; left; split <;> rfl
  | _ => injection h with h; subst h; exact .inl rfl

/-- The framebuffer is written by CLS and DRW alone (R326). -/
theorem exec_fb (h : exec i s = .next t) : t.fb = s.fb ∨ i = .cls ∨ ∃ x y n, i = .drw x y n := by
  cases i with
  | call nnn => obtain ⟨_, rfl⟩ := execCall_next h; exact .inl rfl
  | ret => obtain ⟨_, rfl⟩ := execRet_next h; exact .inl rfl
  | cls => exact .inr (.inl rfl)
  | drw x y n => exact .inr (.inr ⟨x, y, n, rfl⟩)
  | seImm | sneImm | seReg | sneReg | skp | sknp =>
    injection h with h; subst h; left; simp only [State.skipIf]; split <;> rfl
  | ldVxK => injection h with h; subst h; left; split <;> rfl
  | _ => injection h with h; subst h; exact .inl rfl

/-- The call stack is moved by CALL and RET alone (R38). -/
theorem exec_stack (h : exec i s = .next t) :
    (t.stack = s.stack ∧ t.sp = s.sp) ∨ i = .ret ∨ ∃ nnn, i = .call nnn := by
  cases i with
  | call nnn => exact .inr (.inr ⟨nnn, rfl⟩)
  | ret => exact .inr (.inl rfl)
  | seImm | sneImm | seReg | sneReg | skp | sknp =>
    injection h with h; subst h; left; simp only [State.skipIf]; split <;> exact ⟨rfl, rfl⟩
  | ldVxK => injection h with h; subst h; left; split <;> exact ⟨rfl, rfl⟩
  | _ => injection h with h; subst h; exact .inl ⟨rfl, rfl⟩

/-- The delay timer is written by FX15 alone, the sound timer by FX18 alone (R281, R282). -/
theorem exec_timers (h : exec i s = .next t) :
    (t.DT = s.DT ∨ ∃ x, i = .ldDtVx x ∧ t.DT = s.reg x) ∧ (t.ST = s.ST ∨ ∃ x, i = .ldStVx x ∧ t.ST = s.reg x) := by
  cases i with
  | call nnn => obtain ⟨_, rfl⟩ := execCall_next h; exact ⟨.inl rfl, .inl rfl⟩
  | ret => obtain ⟨_, rfl⟩ := execRet_next h; exact ⟨.inl rfl, .inl rfl⟩
  | ldDtVx x => injection h with h; subst h; exact ⟨.inr ⟨x, rfl, rfl⟩, .inl rfl⟩
  | ldStVx x => injection h with h; subst h; exact ⟨.inl rfl, .inr ⟨x, rfl, rfl⟩⟩
  | seImm | sneImm | seReg | sneReg | skp | sknp =>
    injection h with h; subst h; simp only [State.skipIf]; split <;> exact ⟨.inl rfl, .inl rfl⟩
  | ldVxK => injection h with h; subst h; split <;> exact ⟨.inl rfl, .inl rfl⟩
  | _ => injection h with h; subst h; exact ⟨.inl rfl, .inl rfl⟩

/-- The wait state is entered by FX0A alone, with pc back at its own address (R262, R265). -/
theorem exec_wait (h : exec i s = .next t) :
    t.wait = s.wait ∨ ∃ x, i = .ldVxK x ∧ t.wait = some x ∧ t.pc = s.instrAddr ∧ t.mem = s.mem := by
  cases i with
  | call nnn => obtain ⟨_, rfl⟩ := execCall_next h; exact .inl rfl
  | ret => obtain ⟨_, rfl⟩ := execRet_next h; exact .inl rfl
  | seImm | sneImm | seReg | sneReg | skp | sknp =>
    injection h with h; subst h; simp only [State.skipIf]; split <;> exact .inl rfl
  | ldVxK x =>
    injection h with h; subst h
    split
    · exact .inl rfl
    · refine .inr ⟨x, rfl, rfl, ?_, rfl⟩
      simp [State.instrAddr, maskPc]
  | _ => injection h with h; subst h; exact .inl rfl

/-- Every instruction leaves pc below 4096 (R34). -/
theorem exec_pc_lt (h : exec i s = .next t) (hs : s.pc.toNat < 4096) : t.pc.toNat < 4096 := by
  cases i with
  | call nnn => obtain ⟨_, rfl⟩ := execCall_next h; exact maskPc_lt _
  | ret => obtain ⟨_, rfl⟩ := execRet_next h; exact maskPc_lt _
  | seImm | sneImm | seReg | sneReg | skp | sknp =>
    injection h with h; subst h; simp only [State.skipIf]; split
    · exact maskPc_lt _
    · exact hs
  | ldVxK =>
    injection h with h; subst h; split
    · exact hs
    · exact maskPc_lt _
  | jp | jpV0 => injection h with h; subst h; exact maskPc_lt _
  | _ => injection h with h; subst h; exact hs

/-- What the wait phase may change: the register, the wait state and pc (R263). -/
theorem waitPhase_cases (s : State) (r : Reg) :
    (∃ k, lowestKey s.newKeys = some k ∧ s.waitPhase r = ((s.setReg r (BitVec.ofNat 8 k)).setWait none).advance) ∨
    (lowestKey s.newKeys = none ∧ s.waitPhase r = s) := by
  unfold State.waitPhase
  split
  next k hk => exact .inl ⟨k, hk, rfl⟩
  next hk => exact .inr ⟨hk, rfl⟩

/-- The fields that the wait phase does not write. -/
theorem waitPhase_unwritten (s : State) (r : Reg) :
    (s.waitPhase r).mem = s.mem ∧ (s.waitPhase r).fb = s.fb ∧ (s.waitPhase r).stack = s.stack ∧
      (s.waitPhase r).sp = s.sp ∧ (s.waitPhase r).DT = s.DT ∧ (s.waitPhase r).ST = s.ST ∧
      (s.waitPhase r).keys = s.keys ∧ (s.waitPhase r).prev = s.prev ∧ (s.waitPhase r).lastTick = s.lastTick ∧
      (s.waitPhase r).fault = s.fault ∧ (s.waitPhase r).loaded = s.loaded ∧ (s.waitPhase r).calls = s.calls ∧
      (s.waitPhase r).cfg = s.cfg := by
  rcases waitPhase_cases s r with ⟨k, _, h⟩ | ⟨_, h⟩ <;> simp [h]

/-- A tick as the engine reads it has TICK_W bits (R43). -/
theorem tickOf_lt (s : State) (a : StepArgs) : s.tickOf a < 2 ^ s.cfg.tickW := Nat.mod_lt _ (by positivity)

/-- Why a fetch faults: an odd pc, before anything is read, or an illegal word (R143, R301). -/
theorem fetch_eq_error {f : Fault} : s.fetch = .error f ↔
    (f = .misalignedFetch s.pc ∧ s.pc.toNat % 2 = 1) ∨
    (f = .illegalInstruction s.pc s.fetchWord ∧ s.pc.toNat % 2 = 0 ∧ ∃ e, decode s.fetchWord = .error e) := by
  unfold State.fetch
  split
  next h => simp [h, eq_comm]
  next h =>
    have h0 : s.pc.toNat % 2 = 0 := by omega
    split
    next j hj => simp [h0, hj]
    next e he => simp [h0, he, eq_comm]

/-- All that a step which goes on can have done (R141): a finished instruction, a finished wait phase, or a taken
fault. -/
theorem step_next_spec (h : step s = .next t) :
    (∃ i u, Fetches s i ∧ exec i s.entered = .next u ∧ t = u.finish (s.tickOf s.nextArgs)) ∨
    (∃ r, s.wait = some r ∧
      t = ((s.popCall.latchKeys s.nextArgs.keys).waitPhase r).finish (s.tickOf s.nextArgs)) ∨
    (∃ f, FaultsWith s f ∧ t = s.popCall.takeFault f) := by
  rcases step_next_cases h with ⟨u, hu, rfl⟩ | ⟨f, hf, rfl⟩
  · rcases phase3_next_cases hu with ⟨r, hr, rfl⟩ | ⟨i, hw, hfe, hx⟩
    · exact .inr (.inl ⟨r, hr, rfl⟩)
    · rw [entered_eq] at hx
      exact .inl ⟨i, u, ⟨hw, fetch_eq_ok.1 hfe⟩, hx, rfl⟩
  · refine .inr (.inr ⟨f, ?_, rfl⟩)
    unfold State.phase3 at hf
    split at hf
    · cases hf
    next hw =>
      have hw : s.wait = none := hw
      refine ⟨hw, ?_⟩
      unfold State.runInstr at hf
      split at hf
      next g hg =>
        injection hf with hf; subst hf
        rcases fetch_eq_error.1 hg with h | h
        · exact .inl h
        · exact .inr (.inl h)
      next i hi =>
        have hF : Fetches s i := ⟨hw, fetch_eq_ok.1 hi⟩
        rw [entered_eq] at hf
        rcases exec_cases i s.entered with ⟨v, hv⟩ | ⟨nnn, rfl, hsp, hv⟩ | ⟨rfl, hsp, hv⟩ <;> rw [hv] at hf
        · cases hf
        · injection hf with hf; exact .inr (.inr (.inl ⟨hf.symm, hsp, nnn, hF⟩))
        · injection hf with hf; exact .inr (.inr (.inr ⟨hf.symm, hsp, hF⟩))

/-- The address of the instruction that a step executes is the pc it was fetched from. -/
theorem entered_instrAddr (hp : s.pc.toNat < 4096) : s.entered.instrAddr = s.pc := by
  apply BitVec.eq_of_toNat_eq
  rw [instrAddr_toNat]
  simp only [State.entered, BitVec.toNat_ofNat]
  omega

/-- At most one instruction is fetched. -/
theorem Fetches.unique {j : Instr} (h : Fetches s i) (h' : Fetches s j) : i = j := by
  have := h.2.2.symm.trans h'.2.2
  injection this

end Sys2Proof.Machine
end

