-- ==== Sys2Proof/Laws/HostOps.lean ====
section
/-!
SUPPORT. What load and the engine without a program leave in each element the statements ask about (R45, R49, R361), and
the two answers of load.
-/

namespace Sys2Proof.Machine

/-! ## An engine without a program -/

variable (cfg : Config) (calls : List StepArgs) (draws : Nat)

@[simp] theorem State.notLoaded_loaded : (State.notLoaded cfg calls draws).loaded = false := rfl
@[simp] theorem State.notLoaded_draws : (State.notLoaded cfg calls draws).draws = draws + 1 := rfl
@[simp] theorem State.notLoaded_calls : (State.notLoaded cfg calls draws).calls = calls := rfl
@[simp] theorem State.notLoaded_cfg : (State.notLoaded cfg calls draws).cfg = cfg := rfl

/-- Whatever the free value is, it lies in the ranges of R50. -/
theorem State.inv_notLoaded : Inv (State.notLoaded cfg calls draws) := by
  refine ⟨Memory.wf_writeCells Memory.wf_nil _, maskPc_lt _, fun n hn => ?_⟩
  simp only [State.notLoaded, State.inRange, Option.map_eq_some_iff] at hn
  obtain ⟨m, _, rfl⟩ := hn
  exact Nat.mod_lt _ (by positivity)

/-! ## Load -/

/-- A program that fits (R360). -/
theorem performLoad_of_le {p : List Byte} (s : State) (h : p.length ≤ 3584) : performLoad p s = (.done, s.loadOk p) := by
  simp [performLoad, maxProgramBytes, Nat.not_lt.2 h]

/-- A program that does not (R361). -/
theorem performLoad_of_gt {p : List Byte} (s : State) (h : 3584 < p.length) :
    performLoad p s = (.programTooLarge p.length, s.loadFailed) := by
  simp [performLoad, maxProgramBytes, h]

@[simp] theorem State.loadOk_loaded (s : State) (p : List Byte) : (s.loadOk p).loaded = true := rfl
@[simp] theorem State.loadOk_fault (s : State) (p : List Byte) : (s.loadOk p).fault = none := rfl
@[simp] theorem State.loadFailed_loaded (s : State) : s.loadFailed.loaded = false := rfl

/-! ## A step as a transaction -/

/-- A step as a transaction is a step of the machine whose next call is that one. -/
theorem stepWith_eq_step (a : StepArgs) (s : State) : stepWith a s = step { s with calls := a :: s.calls } := rfl

/-- The result of a step that goes on says what the latch holds: Ok with no fault, Err with the one it took. -/
theorem step_next_reply {s t : State} (h : step s = .next t) :
    (t.fault = none ∧ ∃ b, t.reply = some (.ok b)) ∨ ∃ f, t.fault = some f.kind ∧ t.reply = some (.err f) := by
  have hfault := (accepts_of_step_next h).2.1
  rcases step_next_spec h with ⟨i, u, _, hx, rfl⟩ | ⟨r, _, rfl⟩ | ⟨f, _, rfl⟩
  · exact .inl ⟨(exec_unwritten hx).2.2.2.1.trans hfault, _, rfl⟩
  · exact .inl ⟨(waitPhase_unwritten _ r).2.2.2.2.2.2.2.2.2.1.trans hfault, _, rfl⟩
  · exact .inr ⟨f, rfl, rfl⟩

end Sys2Proof.Machine
end

