-- ==== Sys2Proof/Laws/PerInstr.lean ====
section
/-!
SUPPORT. Per-instruction laws. Family FitsRow: the word of an instruction has the bits that its row of
spec/opcode_table.json fixes.
-/

namespace Sys2Proof

/-! ## A word under the three masks of the table -/

theorem mask_family (f : BitVec 4) (a : Addr) : formatA f a &&& 0xF000#16 = formatA f 0 := by
  apply BitVec.eq_of_getLsbD_eq
  intro i hi
  rw [BitVec.getLsbD_and, getLsbD_word, getLsbD_word]
  interval_cases i <;> simp

theorem mask_familyXYN (f : BitVec 4) (x y : Reg) (n : BitVec 4) :
    formatXYN f x y n &&& 0xF00F#16 = formatXYN f 0 0 n := by
  apply BitVec.eq_of_getLsbD_eq
  intro i hi
  rw [BitVec.getLsbD_and]
  simp only [formatXYN, formatXNN, getLsbD_word, getLsbD_addr, getLsbD_byte]
  interval_cases i <;> simp

theorem mask_familyX (f : BitVec 4) (x : Reg) (nn : Byte) : formatXNN f x nn &&& 0xF0FF#16 = formatXNN f 0 nn := by
  apply BitVec.eq_of_getLsbD_eq
  intro i hi
  rw [BitVec.getLsbD_and]
  simp only [formatXNN, getLsbD_word, getLsbD_addr]
  interval_cases i <;> simp

theorem fits_of_family {r : OpcodeRow} {f : BitVec 4} {a : Addr} (hm : r.mask = 0xF000#16)
    (hp : r.pat = formatA f 0) : r.fits (formatA f a) = true := by
  rw [OpcodeRow.fits, hm, hp, mask_family]; simp

theorem fits_of_familyXYN {r : OpcodeRow} {f n : BitVec 4} {x y : Reg} (hm : r.mask = 0xF00F#16)
    (hp : r.pat = formatXYN f 0 0 n) : r.fits (formatXYN f x y n) = true := by
  rw [OpcodeRow.fits, hm, hp, mask_familyXYN]; simp

theorem fits_of_familyX {r : OpcodeRow} {f : BitVec 4} {x : Reg} {nn : Byte} (hm : r.mask = 0xF0FF#16)
    (hp : r.pat = formatXNN f 0 nn) : r.fits (formatXNN f x nn) = true := by
  rw [OpcodeRow.fits, hm, hp, mask_familyX]; simp

namespace Laws.FitsRow

/-- The word of the instruction fits the instruction's row of the opcode table (R110). -/
def Statement (i : Instr) : Prop := (rowOf i).fits (encode i) = true

theorem cls : Statement .cls := rfl
theorem ret : Statement .ret := rfl
theorem jp (nnn : Addr) : Statement (.jp nnn) := fits_of_family rfl rfl
theorem call (nnn : Addr) : Statement (.call nnn) := fits_of_family rfl rfl
theorem seImm (x : Reg) (nn : Byte) : Statement (.seImm x nn) := fits_of_family rfl rfl
theorem sneImm (x : Reg) (nn : Byte) : Statement (.sneImm x nn) := fits_of_family rfl rfl
theorem seReg (x y : Reg) : Statement (.seReg x y) := fits_of_family rfl rfl
theorem ldImm (x : Reg) (nn : Byte) : Statement (.ldImm x nn) := fits_of_family rfl rfl
theorem addImm (x : Reg) (nn : Byte) : Statement (.addImm x nn) := fits_of_family rfl rfl
theorem ldReg (x y : Reg) : Statement (.ldReg x y) := fits_of_familyXYN rfl rfl
theorem or (x y : Reg) : Statement (.or x y) := fits_of_familyXYN rfl rfl
theorem and (x y : Reg) : Statement (.and x y) := fits_of_familyXYN rfl rfl
theorem xor (x y : Reg) : Statement (.xor x y) := fits_of_familyXYN rfl rfl
theorem addReg (x y : Reg) : Statement (.addReg x y) := fits_of_familyXYN rfl rfl
theorem sub (x y : Reg) : Statement (.sub x y) := fits_of_familyXYN rfl rfl
theorem shr (x y : Reg) : Statement (.shr x y) := fits_of_familyXYN rfl rfl
theorem subn (x y : Reg) : Statement (.subn x y) := fits_of_familyXYN rfl rfl
theorem shl (x y : Reg) : Statement (.shl x y) := fits_of_familyXYN rfl rfl
theorem sneReg (x y : Reg) : Statement (.sneReg x y) := fits_of_family rfl rfl
theorem ldI (nnn : Addr) : Statement (.ldI nnn) := fits_of_family rfl rfl
theorem jpV0 (x : Reg) (nnn : Addr) : Statement (.jpV0 x nnn) := fits_of_family rfl rfl
theorem rnd (x : Reg) (nn : Byte) : Statement (.rnd x nn) := fits_of_family rfl rfl
theorem drw (x y : Reg) (n : BitVec 4) : Statement (.drw x y n) := fits_of_family rfl rfl
theorem skp (x : Reg) : Statement (.skp x) := fits_of_familyX rfl rfl
theorem sknp (x : Reg) : Statement (.sknp x) := fits_of_familyX rfl rfl
theorem ldVxDt (x : Reg) : Statement (.ldVxDt x) := fits_of_familyX rfl rfl
theorem ldVxK (x : Reg) : Statement (.ldVxK x) := fits_of_familyX rfl rfl
theorem ldDtVx (x : Reg) : Statement (.ldDtVx x) := fits_of_familyX rfl rfl
theorem ldStVx (x : Reg) : Statement (.ldStVx x) := fits_of_familyX rfl rfl
theorem addIVx (x : Reg) : Statement (.addIVx x) := fits_of_familyX rfl rfl
theorem ldFVx (x : Reg) : Statement (.ldFVx x) := fits_of_familyX rfl rfl
theorem ldBVx (x : Reg) : Statement (.ldBVx x) := fits_of_familyX rfl rfl
theorem ldMemVx (x : Reg) : Statement (.ldMemVx x) := fits_of_familyX rfl rfl
theorem ldVxMem (x : Reg) : Statement (.ldVxMem x) := fits_of_familyX rfl rfl

end Laws.FitsRow

end Sys2Proof
end

