-- ==== Sys2Proof/Tests/Slice0.lean ====
section
/-!
SUPPORT. Tests. Expected values are the vectors of spec/95_test_vectors.md (named in each comment) or hand
calculation from the rule named; then a witness for every statement of Obligations.lean that has hypotheses.
-/

namespace Sys2Proof.Tests

open Sys2Proof Sys2Proof.Machine

/-! ## Helpers -/

/-- The reset state with one instruction word where the next step fetches it. -/
def at200 (w : Nat) : State := State.reset.withFetchWord 16 w

/-- The same with registers set. -/
def withRegs (s : State) (rs : List (Reg × Byte)) : State := rs.foldl (fun s p => s.setReg p.1 p.2) s

/-- The same with one call listed. -/
def withCall (s : State) (keys : Word) (tick : Nat) : State := { s with calls := [⟨keys, tick⟩] }

/-- A property of the next state; false at a fault or a refusal. -/
def after (o : Host.Outcome State Fault Refusal) (p : State → Bool) : Bool :=
  match o with
  | .next t => p t
  | .fault _ => false
  | .refused _ => false

/-- One step, then a look at the state. -/
def stepThen (s : State) (p : State → Bool) : Bool := after (step s) p

/-! ## WellFormed refuses an ill-formed term -/

/-- BNNN whose x is not the top nibble of its nnn (R101): the one check there is. -/
theorem test_wf_refuses_jpV0 : Instr.wf (.jpV0 3 0x210) = false := by decide

theorem test_wf_accepts_jpV0 : Instr.wf (.jpV0 2 0x210) = true := by decide

/-! ## Decoding: each row of R110, its word written out bit by bit (fam, then the operand nibbles) -/

theorem test_decode_cls : decode 0b0000000011100000 = .ok (.cls) := by decide
theorem test_decode_ret : decode 0b0000000011101110 = .ok (.ret) := by decide
theorem test_decode_jp : decode 0b0001111111111110 = .ok (.jp 0xFFE) := by decide
theorem test_decode_call : decode 0b0010000000000001 = .ok (.call 0x001) := by decide
theorem test_decode_seImm : decode 0b0011001100010000 = .ok (.seImm 3 0x10) := by decide
theorem test_decode_sneImm : decode 0b0100111110000001 = .ok (.sneImm 15 0x81) := by decide
theorem test_decode_seReg : decode 0b0101000100100000 = .ok (.seReg 1 2) := by decide
theorem test_decode_ldImm : decode 0b0110101001000010 = .ok (.ldImm 10 0x42) := by decide
theorem test_decode_addImm : decode 0b0111101000000001 = .ok (.addImm 10 0x01) := by decide
theorem test_decode_ldReg : decode 0b1000111100010000 = .ok (.ldReg 15 1) := by decide
theorem test_decode_or : decode 0b1000000000010001 = .ok (.or 0 1) := by decide
theorem test_decode_and : decode 0b1000000000010010 = .ok (.and 0 1) := by decide
theorem test_decode_xor : decode 0b1000000000010011 = .ok (.xor 0 1) := by decide
theorem test_decode_addReg : decode 0b1000000011110100 = .ok (.addReg 0 15) := by decide
theorem test_decode_sub : decode 0b1000000000010101 = .ok (.sub 0 1) := by decide
theorem test_decode_shr : decode 0b1000011100010110 = .ok (.shr 7 1) := by decide
theorem test_decode_subn : decode 0b1000000000010111 = .ok (.subn 0 1) := by decide
theorem test_decode_shl : decode 0b1000000010001110 = .ok (.shl 0 8) := by decide
theorem test_decode_sneReg : decode 0b1001000100100000 = .ok (.sneReg 1 2) := by decide
theorem test_decode_ldI : decode 0b1010001011110000 = .ok (.ldI 0x2F0) := by decide
theorem test_decode_jpV0 : decode 0b1011001000010000 = .ok (.jpV0 2 0x210) := by decide
theorem test_decode_rnd : decode 0b1100000000001111 = .ok (.rnd 0 0x0F) := by decide
theorem test_decode_drw : decode 0b1101000100100101 = .ok (.drw 1 2 5) := by decide
theorem test_decode_skp : decode 0b1110000010011110 = .ok (.skp 0) := by decide
theorem test_decode_sknp : decode 0b1110000010100001 = .ok (.sknp 0) := by decide
theorem test_decode_ldVxDt : decode 0b1111000100000111 = .ok (.ldVxDt 1) := by decide
theorem test_decode_ldVxK : decode 0b1111001100001010 = .ok (.ldVxK 3) := by decide
theorem test_decode_ldDtVx : decode 0b1111000000010101 = .ok (.ldDtVx 0) := by decide
theorem test_decode_ldStVx : decode 0b1111000000011000 = .ok (.ldStVx 0) := by decide
theorem test_decode_addIVx : decode 0b1111001000011110 = .ok (.addIVx 2) := by decide
theorem test_decode_ldFVx : decode 0b1111000000101001 = .ok (.ldFVx 0) := by decide
theorem test_decode_ldBVx : decode 0b1111000000110011 = .ok (.ldBVx 0) := by decide
theorem test_decode_ldMemVx : decode 0b1111001001010101 = .ok (.ldMemVx 2) := by decide
theorem test_decode_ldVxMem : decode 0b1111111101100101 = .ok (.ldVxMem 15) := by decide

/-- R107, T16: the low nibble of families 5 and 9 selects nothing. -/
theorem test_decode_ignores_low_nibble :
    decode 0b0101000100101111 = .ok (.seReg 1 2) ∧ decode 0b1001000100100001 = .ok (.sneReg 1 2) := by decide

/-- T24, T25, T26: illegal words. -/
theorem test_decode_illegal :
    decode 0x0123 = .error (.family0 0x123) ∧ decode 0x0000 = .error (.family0 0) ∧
    decode 0x8008 = .error (.family8 8) ∧ decode 0x800F = .error (.family8 15) ∧
    decode 0xE09F = .error (.familyE 0x9F) ∧ decode 0xF0FF = .error (.familyF 0xFF) ∧
    decode 0xF075 = .error (.familyF 0x75) := by decide

/-- R111, R72: two bytes, the high one first; the rest is left. One byte is no instruction. -/
theorem test_decodeBytes :
    decodeBytes [0xD1, 0x25, 0x77] = .ok (.drw 1 2 5, [0x77]) ∧ decodeBytes [0xD1] = .error .truncated := by decide

/-- The host's reader of the table gives the decoder's answer. -/
theorem test_decodeTableWord :
    decodeTableWord 16 0xF255 = some (.ldMemVx 2) ∧ decodeTableWord 16 0x8008 = none := by decide

/-! ## One step of each instruction -/

/-- G1. -/
theorem test_cls :
    stepThen ({ at200 0x00E0 with fb := Vector.replicate 32 5 }) (fun t => t.fb == Vector.replicate 32 0 && t.pc == 0x202) = true := by decide

/-- T1. -/
theorem test_jp :
    stepThen (at200 0x1234) (fun t => t.pc == 0x234) = true := by decide

/-- T4. -/
theorem test_call_wraps_the_return_address :
    stepThen ({ State.reset with pc := 0xFFE }.withFetchWord 16 0x2300) (fun t => t.stack[0] == 0 && t.sp == 1 && t.pc == 0x300) = true := by decide

/-- T5. -/
theorem test_call_overflow :
    stepThen ({ at200 0x2300 with sp := 16, keys := 3, DT := 9, calls := [⟨7, 4⟩] }) (fun t => t.fault == some .stackOverflow && t.pc == 0x200 && t.sp == 16 && t.keys == 3 && t.DT == 9 &&
      t.reply == some (.err (.stackOverflow 0x200))) = true := by decide

/-- T6. -/
theorem test_ret :
    stepThen ({ { State.reset with pc := 0x300, sp := 1, stack := (Vector.replicate 16 0).set 0 0x202 }.withFetchWord 16 0x00EE with
      DT := 0 }) (fun t => t.pc == 0x202 && t.sp == 0 && t.stack[0] == 0x202) = true := by decide

/-- T7. -/
theorem test_ret_underflow :
    stepThen (at200 0x00EE) (fun t => t.fault == some .stackUnderflow && t.pc == 0x200 && t.reply == some (.err (.stackUnderflow 0x200))) = true := by decide

/-- T9. -/
theorem test_jpV0 :
    stepThen (withRegs (at200 0xBFFF) [(0, 0xFF)]) (fun t => t.pc == 0x0FE) = true := by decide

/-- T10. -/
theorem test_jpV0_by_parameter :
    stepThen ({ withRegs (at200 0xB210) [(2, 0x10)] with cfg := { Config.standard with jumpBUsesVx := true } }) (fun t => t.pc == 0x220) = true := by decide

/-- T12. -/
theorem test_seImm_not :
    stepThen (withRegs (at200 0x3310) [(3, 0x11)]) (fun t => t.pc == 0x202) = true := by decide

/-- T14. -/
theorem test_sneImm :
    stepThen (withRegs (at200 0x4310) [(3, 0x11)]) (fun t => t.pc == 0x204) = true := by decide

/-- T13. -/
theorem test_sneImm_not :
    stepThen (withRegs (at200 0x4310) [(3, 0x10)]) (fun t => t.pc == 0x202) = true := by decide

/-- T15. -/
theorem test_seReg :
    stepThen (withRegs (at200 0x5120) [(1, 0x7F), (2, 0x7F)]) (fun t => t.pc == 0x204) = true := by decide

/-- T17. -/
theorem test_seReg_not :
    stepThen (withRegs (at200 0x5120) [(1, 1), (2, 2)]) (fun t => t.pc == 0x202) = true := by decide

/-- T18. -/
theorem test_sneReg :
    stepThen (withRegs (at200 0x9120) [(1, 1), (2, 2)]) (fun t => t.pc == 0x204) = true := by decide

/-- T19. -/
theorem test_sneReg_same :
    stepThen (at200 0x9110) (fun t => t.pc == 0x202) = true := by decide

/-- T20. -/
theorem test_seImm_wraps :
    stepThen ({ State.reset with pc := 0xFFE }.withFetchWord 16 0x3000) (fun t => t.pc == 0x002) = true := by decide

/-- A1. -/
theorem test_ldImm :
    stepThen (at200 0x6A42) (fun t => t.reg 10 == 0x42) = true := by decide

/-- A2. -/
theorem test_addImm :
    stepThen (withRegs (at200 0x7A01) [(10, 0xFF), (15, 0x77)]) (fun t => t.reg 10 == 0 && t.reg 15 == 0x77) = true := by decide

/-- A4. -/
theorem test_ldReg :
    stepThen (withRegs (at200 0x8010) [(1, 0x33), (15, 1)]) (fun t => t.reg 0 == 0x33 && t.reg 15 == 0) = true := by decide

/-- A5. -/
theorem test_ldReg_from_vf :
    stepThen (withRegs (at200 0x80F0) [(15, 0x55)]) (fun t => t.reg 0 == 0x55 && t.reg 15 == 0) = true := by decide

/-- A7. -/
theorem test_or :
    stepThen (withRegs (at200 0x8011) [(0, 0xF0), (1, 0x0F), (15, 1)]) (fun t => t.reg 0 == 0xFF && t.reg 15 == 0) = true := by decide

/-- A8. -/
theorem test_and :
    stepThen (withRegs (at200 0x8012) [(0, 0xF0), (1, 0x3C), (15, 1)]) (fun t => t.reg 0 == 0x30 && t.reg 15 == 0) = true := by decide

/-- A9. -/
theorem test_xor :
    stepThen (withRegs (at200 0x8013) [(0, 0xFF), (1, 0x0F), (15, 1)]) (fun t => t.reg 0 == 0xF0 && t.reg 15 == 0) = true := by decide

/-- A11. -/
theorem test_addReg :
    stepThen (withRegs (at200 0x8014) [(0, 0x01), (1, 0xFF)]) (fun t => t.reg 0 == 0 && t.reg 15 == 1) = true := by decide

/-- A15. -/
theorem test_addReg_flag_wins :
    stepThen (withRegs (at200 0x8F14) [(15, 0x10), (1, 0xF5)]) (fun t => t.reg 15 == 1) = true := by decide

/-- A17. -/
theorem test_sub_borrow :
    stepThen (withRegs (at200 0x8015) [(0, 5), (1, 7)]) (fun t => t.reg 0 == 0xFE && t.reg 15 == 0) = true := by decide

/-- A19. -/
theorem test_sub_equal :
    stepThen (withRegs (at200 0x8015) [(0, 5), (1, 5)]) (fun t => t.reg 0 == 0 && t.reg 15 == 1) = true := by decide

/-- A22. -/
theorem test_subn_borrow :
    stepThen (withRegs (at200 0x8017) [(0, 7), (1, 5)]) (fun t => t.reg 0 == 0xFE && t.reg 15 == 0) = true := by decide

/-- A23. -/
theorem test_subn :
    stepThen (withRegs (at200 0x8017) [(0, 5), (1, 7)]) (fun t => t.reg 0 == 2 && t.reg 15 == 1) = true := by decide

/-- A29. -/
theorem test_shr :
    stepThen (withRegs (at200 0x8016) [(0, 0xAA), (1, 3)]) (fun t => t.reg 0 == 0x55 && t.reg 15 == 0) = true := by decide

/-- A28. -/
theorem test_shr_vy :
    stepThen ({ withRegs (at200 0x8016) [(0, 0xAA), (1, 3)] with cfg := { Config.standard with shiftSource := .vy } }) (fun t => t.reg 0 == 1 && t.reg 15 == 1) = true := by decide

/-- A30. -/
theorem test_shl :
    stepThen (withRegs (at200 0x800E) [(0, 0x81)]) (fun t => t.reg 0 == 2 && t.reg 15 == 1) = true := by decide

/-- A32. -/
theorem test_shl_vy :
    stepThen ({ withRegs (at200 0x801E) [(1, 0x80)] with cfg := { Config.standard with shiftSource := .vy } }) (fun t => t.reg 0 == 0 && t.reg 15 == 1) = true := by decide

/-- A40: whatever the draw. -/
theorem test_rnd_zero_mask : ∃ t, exec (.rnd 0 0) State.reset = .next t ∧ t.reg 0 = 0 := ⟨_, rfl, by simp⟩

/-- A35. -/
theorem test_ldI :
    stepThen (at200 0xA2F0) (fun t => t.I == 0x02F0) = true := by decide

/-- A38. -/
theorem test_addIVx :
    stepThen ((withRegs (at200 0xF01E) [(0, 2), (15, 7)]).setIndex 0xFFFF) (fun t => t.I == 1 && t.reg 15 == 7) = true := by decide

/-- A54. -/
theorem test_ldFVx :
    stepThen (withRegs (at200 0xF029) [(0, 0x1F)]) (fun t => t.I == 0x04B) = true := by decide

/-- A47. -/
theorem test_ldBVx :
    stepThen ((withRegs (at200 0xF033) [(0, 254)]).setIndex 0x300) (fun t => t.load8 0x300 == 2 && t.load8 0x301 == 5 && t.load8 0x302 == 4 && t.I == 0x300) = true := by decide

/-- A52. -/
theorem test_ldBVx_wraps :
    stepThen ((withRegs (at200 0xF033) [(0, 123)]).setIndex 0xFFE) (fun t => t.load8 0xFFE == 1 && t.load8 0xFFF == 2 && t.load8 0 == 3) = true := by decide

/-- A42; V3 is not stored. -/
theorem test_ldMemVx :
    stepThen ((withRegs (at200 0xF255) [(0, 1), (1, 2), (2, 3), (3, 9)]).setIndex 0x300) (fun t => t.load8 0x300 == 1 && t.load8 0x301 == 2 && t.load8 0x302 == 3 && t.load8 0x303 == 0 && t.I == 0x303) = true := by decide

/-- A44. -/
theorem test_ldMemVx_wraps :
    stepThen ((withRegs (at200 0xF255) [(0, 1), (1, 2), (2, 3)]).setIndex 0xFFE) (fun t => t.load8 0xFFE == 1 && t.load8 0xFFF == 2 && t.load8 0 == 3 && t.I == 0x1001) = true := by decide

/-- A45; V3 is not loaded. -/
theorem test_ldVxMem :
    stepThen (((withRegs (at200 0xF265) [(3, 9)]).setIndex 0x300).storeBytes 0x300 [2, 5, 4, 7]) (fun t => t.reg 0 == 2 && t.reg 1 == 5 && t.reg 2 == 4 && t.reg 3 == 9 && t.I == 0x303) = true := by decide

/-- P5, step 6: glyph A at column 62, row 30; columns wrap, rows 32 to 34 are clipped. -/
theorem test_drw :
    stepThen ((withRegs (at200 0xD125) [(1, 62), (2, 30)]).setIndex 0x32) (fun t => t.fb[30] == 0xC000000000000003 && t.fb[31] == 0x4000000000000002 && t.fb[0] == 0 && t.fb[29] == 0 && t.reg 15 == 0) = true := by decide

/-- G6, G10 and R243 by hand: VF is the column before it is the flag, row 32 wraps onto a lit cell. -/
theorem test_drw_collides :
    stepThen (((withRegs { at200 0xDF12 with cfg := { Config.standard with drawWrapVertical := true }, fb := (Vector.replicate 32 0).set 0 0x20 }
      [(15, 5), (1, 31)]).setIndex 0x300).storeBytes 0x300 [0x80, 0x80]) (fun t => t.fb[31] == 0x20 && t.fb[0] == 0 && t.reg 15 == 1) = true := by decide

/-- K1. -/
theorem test_skp :
    stepThen (withCall (withRegs (at200 0xE09E) [(0, 5)]) 0x20 0) (fun t => t.pc == 0x204) = true := by decide

/-- K3: 21 names no key. -/
theorem test_skp_no_key :
    stepThen (withCall (withRegs (at200 0xE09E) [(0, 0x15)]) 0xFFFF 0) (fun t => t.pc == 0x202) = true := by decide

/-- K4. -/
theorem test_sknp :
    stepThen (withRegs (at200 0xE0A1) [(0, 5)]) (fun t => t.pc == 0x204) = true := by decide

/-- K5. -/
theorem test_sknp_no_key :
    stepThen (withCall (withRegs (at200 0xE0A1) [(0, 0x15)]) 0xFFFF 0) (fun t => t.pc == 0x204) = true := by decide

/-- K6. -/
theorem test_ldVxK_waits :
    stepThen (at200 0xF30A) (fun t => t.wait == some 3 && t.pc == 0x200) = true := by decide

/-- K12: key 0 was already down. -/
theorem test_ldVxK_completes :
    stepThen (withCall { at200 0xFF0A with keys := 1 } 3 0) (fun t => t.reg 15 == 1 && t.pc == 0x202 && t.wait == none) = true := by decide

/-- K8: keys 0 and 3; the lower one is stored. -/
theorem test_wait_completes :
    stepThen (withCall { at200 0xF30A with wait := some 3 } 9 0) (fun t => t.reg 3 == 0 && t.wait == none && t.pc == 0x202) = true := by decide

/-- K9. -/
theorem test_wait_needs_a_new_key :
    stepThen (withCall { at200 0xF30A with wait := some 3, keys := 4 } 4 0) (fun t => t.wait == some 3 && t.pc == 0x200 && t.reg 3 == 0) = true := by decide

/-- K13. -/
theorem test_wait_decays :
    stepThen (withCall { at200 0xF30A with wait := some 3, DT := 5, lastTick := some 10 } 0 12) (fun t => t.DT == 3 && t.wait == some 3) = true := by decide

/-- M7. -/
theorem test_ldVxDt :
    stepThen (withCall { at200 0xF107 with DT := 0x3C, lastTick := some 7 } 0 9) (fun t => t.reg 1 == 0x3C && t.DT == 0x3A) = true := by decide

/-- M8: the first step has no delta. -/
theorem test_ldDtVx :
    stepThen (withCall (withRegs (at200 0xF015) [(0, 5)]) 0 1000) (fun t => t.DT == 5 && t.lastTick == some 1000) = true := by decide

/-- M4. -/
theorem test_ldStVx :
    stepThen (withCall { withRegs (at200 0xF018) [(0, 2)] with lastTick := some 0 } 0 1) (fun t => t.reply == some (.ok true) && t.ST == 1) = true := by decide

/-- M11. -/
theorem test_ldStVx_one_is_silent :
    stepThen (withCall { withRegs (at200 0xF018) [(0, 1)] with lastTick := some 0 } 0 0) (fun t => t.reply == some (.ok false) && t.ST == 1) = true := by decide

/-! ## Faults, the guard, load and the accessors -/

/-- T22. -/
theorem test_misaligned :
    stepThen ({ State.reset with pc := 0x201 }) (fun t => t.fault == some .misalignedFetch && t.pc == 0x201) = true := by decide

/-- T24. -/
theorem test_illegal :
    stepThen (at200 0x0123) (fun t => t.reply == some (.err (.illegalInstruction 0x200 0x0123)) && t.pc == 0x200) = true := by decide

/-- T27: the latch. -/
theorem test_latch : step { at200 0x1234 with fault := some .illegalInstruction } = .fault (.latched .illegalInstruction) := rfl

/-- M9. -/
theorem test_tick_regression : step (withCall { at200 0x1234 with lastTick := some 10 } 0 9) = .refused .tickRegression :=
  rfl

/-- H2: no step of an engine that is not loaded. -/
theorem test_unloaded : step { at200 0x1234 with loaded := false } = .refused .unloaded := rfl

/-- R45: before any load nothing runs, whatever else the engine holds. -/
theorem test_before_load : step (State.beforeLoad Config.standard []) = .refused .unloaded := rfl

/-- R300: the codes of no fault, of a latched fault and of the load error. -/
theorem test_fault_codes :
    State.reset.faultCode = 0 ∧ ({ State.reset with fault := some .misalignedFetch } : State).faultCode = 4 ∧
    (HostReply.programTooLarge 3585).code = 5 := by decide

/-- S1, P1: a small program loaded. -/
theorem test_load :
    (perform (.load [0x12, 0x04]) { State.reset with pc := 0x300, DT := 9, fault := some .stackOverflow }).2 =
      { State.reset with mem := [(0x200, 0x12), (0x201, 0x04)] } := by decide

/-- H4, H5, H6, H7: out of range. -/
theorem test_accessors_clamp :
    perform (.getReg 16) State.reset = (.byte 0, State.reset) ∧ perform (.setReg 16 5) State.reset = (.done, State.reset) ∧
    perform (.getMem 4096) State.reset = (.byte 0, State.reset) ∧
    perform (.setMem 4096 7) State.reset = (.done, State.reset) := by decide

/-- H8: bits 15 to 12 of a written pc are dropped. -/
theorem test_set_pc : (perform (.setPc 0x1202) State.reset).2.pc = 0x202 := by decide

/-- G4: glyph F is the last; after it the blank memory reads 0. -/
theorem test_font : State.reset.load8 0 = 0xF0 ∧ State.reset.load8 0x4F = 0x80 ∧ State.reset.load8 0x50 = 0 := by decide

/-- A write of what an unlisted address reads as leaves no pair (the canonical form). -/
theorem test_memory_canonical : Memory.write (Memory.write [] 0x300 7) 0x300 0 = [] := by decide

theorem test_reset_memory_wf : Memory.wf State.reset.mem = true := by decide

/-! ## Witnesses: for each statement with hypotheses, states and operands that meet them, clause by clause -/

/-- A loaded engine that accepts its next call. -/
theorem accepts_at200 (w : Nat) : Accepts (at200 w) := ⟨rfl, rfl, rfl⟩

/-- The invariant of the states used here. -/
theorem inv_at200 (w : Nat) : Inv (at200 w) := by
  refine ⟨Memory.wf_writeBytes Memory.wf_nil _ _, show State.reset.readyToFetch.pc.toNat < 4096 by decide, fun n h => ?_⟩
  have h0 : (at200 w).lastTick = none := rfl
  rw [h0] at h
  cases h

/-- The longest program that fits, and addresses just outside the font and on each side of a program. -/
theorem witness_LoadInstallsFontAndProgram :
    (List.replicate 3584 (7 : Byte)).length ≤ 3584 ∧ 3583 < (List.replicate 3584 (7 : Byte)).length ∧
    (80 ≤ 80 ∧ 80 < 0x200) ∧ (80 ≤ 0x1FF ∧ 0x1FF < 0x200) ∧ (0x200 + [(7 : Byte)].length ≤ 0x201) ∧
    (0x200 + [(7 : Byte)].length ≤ 4095) := by
  simp only [List.length_replicate, List.length_cons, List.length_nil]
  omega

theorem witness_LoadOfTooLongProgramFails : 3584 < (List.replicate 3585 (7 : Byte)).length := by
  rw [List.length_replicate]
  omega

/-- A load that fits and one that does not, an operation that is no load, and a state without a program. -/
theorem witness_LoadedSaysWhetherStepsRun :
    (List.replicate 3584 (7 : Byte)).length ≤ 3584 ∧ ¬(List.replicate 3585 (7 : Byte)).length ≤ 3584 ∧
    (∀ p, HostOp.step ⟨0, 0⟩ ≠ .load p) ∧ (State.beforeLoad Config.standard []).loaded = false := by
  simp only [List.length_replicate]
  exact ⟨Nat.le_refl _, by omega, by simp, rfl⟩

theorem witness_StepKeepsTheInvariant : ∃ t, Inv (at200 0xF255) ∧ step (at200 0xF255) = .next t :=
  ⟨_, inv_at200 _, rfl⟩

theorem witness_EveryTransactionKeepsTheInvariant : Inv (at200 0xF255) := inv_at200 _

/-- A state that waits at its FX0A, and goes on waiting. -/
theorem witness_StepKeepsPcAtTheWaitingFx0a :
    ∃ t, WaitsAtFx0a { at200 0xF30A with wait := some 3 } ∧ step { at200 0xF30A with wait := some 3 } = .next t ∧
      t.wait = some 3 := by
  refine ⟨_, fun r h => ?_, rfl, rfl⟩
  have : r = 3 := by
    injection h with h
    exact h.symm
  subst this
  decide

theorem witness_DecodeOfEncodeIsTheInstruction : Instr.wf (.jpV0 15 0xFFF) = true ∧ Instr.wf (.drw 15 15 15) = true := by
  decide

/-- A word of a family that ignores no bit, and words of the two that ignore the low nibble. -/
theorem witness_EncodeOfDecodeIsTheWord :
    (decode 0xDFFF = .ok (.drw 15 15 15) ∧ famOf 0xDFFF ≠ 5 ∧ famOf 0xDFFF ≠ 9) ∧
    (decode 0x512F = .ok (.seReg 1 2) ∧ famOf 0x512F = 5) ∧ (decode 0x9121 = .ok (.sneReg 1 2) ∧ famOf 0x9121 = 9) := by
  decide

/-- The last pc whose two bytes do not wrap. -/
theorem witness_InstructionWordsAreBigEndian : ({ State.reset with pc := 0xFFE } : State).pc.toNat < 4095 := by decide

/-- An instruction that goes on, and one whose fault the step takes. -/
theorem witness_StepRunsTheDecodedInstruction :
    (Accepts (at200 0x1234) ∧ Fetches (at200 0x1234) (.jp 0x234)) ∧ (Accepts (at200 0x00EE) ∧ Fetches (at200 0x00EE) .ret) :=
  ⟨⟨accepts_at200 _, rfl, by decide, by decide⟩, accepts_at200 _, rfl, by decide, by decide⟩

/-- The lowest and the highest odd pc. -/
theorem witness_OddPcFaultsAtTheFetch :
    (Accepts { State.reset with pc := 1 } ∧ ({ State.reset with pc := 1 } : State).wait = none ∧
      ({ State.reset with pc := 1 } : State).pc.toNat % 2 = 1) ∧
    (Accepts { State.reset with pc := 0xFFF } ∧ ({ State.reset with pc := 0xFFF } : State).wait = none ∧
      ({ State.reset with pc := 0xFFF } : State).pc.toNat % 2 = 1) :=
  ⟨⟨⟨rfl, rfl, rfl⟩, rfl, by decide⟩, ⟨rfl, rfl, rfl⟩, rfl, by decide⟩

theorem witness_IllegalWordFaultsAndStops :
    Accepts (at200 0x0123) ∧ (at200 0x0123).wait = none ∧ (at200 0x0123).pc.toNat % 2 = 0 ∧
      decode (at200 0x0123).fetchWord = .error (.family0 0x123) :=
  ⟨accepts_at200 _, rfl, by decide, by decide⟩

/-- The four faults. -/
theorem witness_FaultingStepCommitsNothing :
    (∃ t, Inv (at200 0x0123) ∧ step (at200 0x0123) = .next t ∧ t.fault = some .illegalInstruction) ∧
    (∃ t, Inv (at200 0x00EE) ∧ step (at200 0x00EE) = .next t ∧ t.fault = some .stackUnderflow) ∧
    (∃ t, Inv { at200 0x2300 with sp := 16 } ∧ step { at200 0x2300 with sp := 16 } = .next t ∧
      t.fault = some .stackOverflow) ∧
    (∃ t, Inv { at200 0x1234 with pc := 0x201 } ∧ step { at200 0x1234 with pc := 0x201 } = .next t ∧
      t.fault = some .misalignedFetch) :=
  ⟨⟨_, inv_at200 _, rfl, rfl⟩, ⟨_, inv_at200 _, rfl, rfl⟩,
    ⟨_, ⟨(inv_at200 _).1, (inv_at200 0x2300).2.1, (inv_at200 0x2300).2.2⟩, rfl, rfl⟩,
    ⟨_, ⟨(inv_at200 _).1, by decide, (inv_at200 0x1234).2.2⟩, rfl, rfl⟩⟩

theorem witness_FaultLatchHoldsUntilLoad :
    ({ State.reset with fault := some .stackOverflow } : State).loaded = true ∧
    ({ State.reset with fault := some .stackOverflow } : State).fault = some .stackOverflow ∧
    (List.replicate 3584 (7 : Byte)).length ≤ 3584 := by
  rw [List.length_replicate]
  exact ⟨rfl, rfl, Nat.le_refl _⟩

/-- A step that takes a fault, and one that answers a latched one. -/
theorem witness_FaultCodesFollowTheTable :
    (∃ t, perform (.step ⟨0, 0⟩) (at200 0x00EE) = (.step (.err (.stackUnderflow 0x200)), t)) ∧
    (∃ t, perform (.step ⟨0, 0⟩) { State.reset with fault := some .stackOverflow } =
      (.step (.err (.latched .stackOverflow)), t)) := ⟨⟨_, rfl⟩, _, rfl⟩

/-- Each right side of the statement is met: unloaded, a regressing tick, a latched fault. -/
theorem witness_StepStopsExactlyWhereTheGuardSays :
    ({ State.reset with loaded := false } : State).loaded = false ∧
    (∃ t0, (withCall { State.reset with lastTick := some 10 } 0 9).lastTick = some t0 ∧
      (withCall { State.reset with lastTick := some 10 } 0 9).nextArgs.tick % 2 ^ Config.standard.tickW < t0) ∧
    ∃ k, ({ State.reset with fault := some .stackOverflow } : State).fault = some k :=
  ⟨rfl, ⟨10, rfl, by decide⟩, _, rfl⟩

/-- With a recorded tick; the new one may be equal. -/
theorem witness_StepLatchesItsArguments :
    ∃ t, step (withCall { at200 0x1234 with lastTick := some 10 } 7 10) = .next t ∧ t.fault = none ∧
      (withCall { at200 0x1234 with lastTick := some 10 } 7 10).lastTick = some 10 := ⟨_, rfl, rfl, rfl⟩

/-- An instruction that writes no timer: both clauses. -/
theorem witness_TimersFallByTheElapsedTicks :
    ∃ t, step (at200 0x1234) = .next t ∧ t.fault = none ∧ (∀ x, ¬Fetches (at200 0x1234) (.ldDtVx x)) ∧
      (∀ x, ¬Fetches (at200 0x1234) (.ldStVx x)) := by
  have h : decode (at200 0x1234).fetchWord = .ok (.jp 0x234) := by decide
  refine ⟨_, rfl, rfl, fun x hx => ?_, fun x hx => ?_⟩ <;> have e := h.symm.trans hx.2.2 <;> cases e

/-- An FX18, and an instruction that is none. -/
theorem witness_SoundIsSampledBeforeTheDecay :
    (∃ t, step (at200 0xF318) = .next t ∧ t.fault = none ∧ Fetches (at200 0xF318) (.ldStVx 3)) ∧
    (∃ t, step (at200 0x1234) = .next t ∧ t.fault = none ∧ ∀ x, ¬Fetches (at200 0x1234) (.ldStVx x)) := by
  refine ⟨⟨_, rfl, rfl, rfl, by decide, by decide⟩, _, rfl, rfl, fun x hx => ?_⟩
  have h : decode (at200 0x1234).fetchWord = .ok (.jp 0x234) := by decide
  have e := h.symm.trans hx.2.2
  cases e

theorem witness_TimerWritesAreSampledThenDecay :
    (Accepts (at200 0xF315) ∧ Fetches (at200 0xF315) (.ldDtVx 3)) ∧
    (Accepts (at200 0xF318) ∧ Fetches (at200 0xF318) (.ldStVx 3)) :=
  ⟨⟨accepts_at200 _, rfl, by decide, by decide⟩, accepts_at200 _, rfl, by decide, by decide⟩

/-- A waiting state with the highest key new, and one whose held key is not new. -/
theorem witness_WaitPhaseCompletesOnlyOnANewKey :
    (Accepts (withCall { at200 0xF30A with wait := some 3, keys := 1 } 0x8001 0) ∧ LowestNew 1 0x8001 15) ∧
    (Accepts (withCall { at200 0xF30A with wait := some 3, keys := 4 } 4 0) ∧ ∀ k, ¬LowestNew 4 4 k) := by
  refine ⟨⟨⟨rfl, rfl, rfl⟩, by decide, by decide, by decide, by decide⟩, ⟨rfl, rfl, rfl⟩, ?_⟩
  rintro k ⟨_, h1, h2, _⟩
  rw [h1] at h2
  cases h2

/-- A flag writer, and an instruction that leaves VF alone. -/
theorem witness_VfIsWrittenOnlyByItsWriters :
    (∃ t, exec (.addReg 15 1) State.reset = .next t ∧ writesFlag (.addReg 15 1) = true) ∧
    (∃ t, exec (.ldImm 14 1) State.reset = .next t ∧ writesFlag (.ldImm 14 1) = false ∧
      writesVfAsRegister (.ldImm 14 1) = false) := ⟨⟨_, rfl, rfl⟩, _, rfl, rfl, rfl⟩

/-- A step that changes the framebuffer, and an accessor. -/
theorem witness_FramebufferIsWrittenOnlyByClsAndDrw :
    (∃ t, step { at200 0x00E0 with fb := Vector.replicate 32 5 } = .next t ∧ t.fb ≠ Vector.replicate 32 5) ∧
    (∀ p, HostOp.setMem 0 1 ≠ .load p) ∧ (∀ a, HostOp.setMem 0 1 ≠ .step a) :=
  ⟨⟨_, rfl, by decide⟩, by simp, by simp⟩

/-- A CALL changes both, a RET the pointer alone. -/
theorem witness_StackIsMovedOnlyByCallAndRet :
    (∃ t, step (at200 0x2300) = .next t ∧ t.stack ≠ (at200 0x2300).stack) ∧
    (∃ t, step { at200 0x00EE with sp := 1 } = .next t ∧ t.sp ≠ 1) := ⟨⟨_, rfl, by decide⟩, _, rfl, by decide⟩

theorem witness_MemoryIsWrittenOnlyByStores :
    ∃ t, step ((withRegs (at200 0xF055) [(0, 9)]).setIndex 0x300) = .next t ∧ t.mem ≠ (at200 0xF055).mem :=
  ⟨_, rfl, by decide⟩

/-- The smallest x, with I at the top of memory: the second byte wraps. -/
theorem witness_StoresAreSeenByTheNextFetch :
    ∃ t, Memory.wf State.reset.mem = true ∧ 1 ≤ (1 : Reg).toNat ∧
      exec (.ldMemVx 1) (State.reset.setIndex 0xFFFF) = .next t ∧
      ({ t with pc := 0xFFF } : State).pc.toNat = (State.reset.setIndex 0xFFFF).I.toNat % 4096 :=
  ⟨_, rfl, by decide, rfl, by decide⟩

/-- Room for one more entry, and a full stack. -/
theorem witness_CallPushesTheReturnAddress :
    ({ State.reset with sp := 15 } : State).sp.val < 16 ∧ ({ State.reset with sp := 16 } : State).sp.val = 16 := by decide

/-- One entry, a full stack, and an empty one. -/
theorem witness_RetPopsTheTopEntry :
    (0 < ({ State.reset with sp := 1 } : State).sp.val ∧ State.reset.stack[1 - 1]? = some 0) ∧
    (0 < ({ State.reset with sp := 16 } : State).sp.val ∧ State.reset.stack[16 - 1]? = some 0) ∧
    State.reset.sp.val = 0 := by decide

theorem witness_RetResumesAfterTheCall :
    ∃ t, exec (.call 0x300) State.reset = .next t ∧ ({ t with I := 5 } : State).stack = t.stack ∧
      ({ t with I := 5 } : State).sp = t.sp := ⟨_, rfl, rfl, rfl⟩

theorem witness_ImmediateSkipsCompareWithTheByte : State.reset.reg 3 = 0 ∧ State.reset.reg 3 ≠ 0xFF := by decide

theorem witness_RegisterSkipsIgnoreTheLowNibble :
    State.reset.reg 1 = State.reset.reg 2 ∧ (State.reset.setReg 1 9).reg 1 ≠ (State.reset.setReg 1 9).reg 2 := by decide

theorem witness_LdRegCopiesAndClearsVf : (14 : Reg) ≠ 15#4 := by decide

theorem witness_LogicOpsClearVf : (14 : Reg) ≠ 15#4 ∧ 7 < 8 := by decide

theorem witness_AddRegSetsTheCarry : (14 : Reg) ≠ 15#4 := by decide

theorem witness_SubtractionsSetNoBorrow : (14 : Reg) ≠ 15#4 := by decide

/-- Both values of SHIFT_SOURCE. -/
theorem witness_ShiftsSetTheBitShiftedOut :
    (14 : Reg) ≠ 15#4 ∧
    (0 : Byte) = (if State.reset.cfg.shiftSource = .vx then State.reset.reg 14 else State.reset.reg 1) ∧
    (9 : Byte) = (if ShiftSource.vy = .vx then State.reset.reg 14 else (State.reset.setReg 1 9).reg 1) := by decide

theorem witness_RndMasksOneDraw : (0 : Byte) = 0 := rfl

/-- Registers up to x, the last byte stored, the first one that is not, and an I whose bytes wrap. -/
theorem witness_StoreRegsWritesUpToVx :
    Memory.wf State.reset.mem = true ∧ (2 : Reg).toNat ≤ (2 : Reg).toNat ∧
    (2 : Reg).toNat < (0x303 + 4096 - 0x300 % 4096) % 4096 ∧ (2 : Reg).toNat < (1 + 4096 - 0xFFE % 4096) % 4096 ∧
    ¬((2 : Reg).toNat < (0 + 4096 - 0xFFE % 4096) % 4096) := by decide

theorem witness_LoadRegsReadsUpToVx : (2 : Reg).toNat ≤ (2 : Reg).toNat ∧ (2 : Reg).toNat < (3 : Reg).toNat := by decide

/-- The first address past the digits and the last before them, with an I whose digits wrap. -/
theorem witness_BcdStoresThreeDigits :
    Memory.wf State.reset.mem = true ∧ 3 ≤ (1 + 4096 - 0xFFE % 4096) % 4096 ∧ 3 ≤ (0xFFD + 4096 - 0xFFE % 4096) % 4096 := by
  decide

theorem witness_ClsBlanksEveryCell : 31 < 32 ∧ 63 < 64 := by decide

/-- A set sprite bit on a lit cell, at the corner the clip leaves. -/
theorem witness_DrwInvertsTheSpriteCells :
    31 < 32 ∧ 63 < 64 ∧ (14 : Reg) ≠ 15#4 ∧
    (withRegs State.reset [(1, 63), (2, 31)]).spriteBit 1 2 5 31 63 = true ∧
    cell (Vector.replicate 32 (BitVec.allOnes 64)) 31 63 = true := by decide

/-- Registers that are not VF, and a sprite bit on a dark cell. -/
theorem witness_DrawingTwiceRestoresTheFramebuffer :
    ∃ t, (1 : Reg) ≠ 15#4 ∧ (2 : Reg) ≠ 15#4 ∧ exec (.drw 1 2 5) State.reset = .next t ∧
      State.reset.spriteBit 1 2 5 0 0 = true ∧ cell State.reset.fb 0 0 = false :=
  ⟨_, by decide, by decide, rfl, by decide, by decide⟩

/-- Key 15 held; the value 16 with every key held. -/
theorem witness_KeySkipsTestTheLatchedMask :
    ((withRegs { State.reset with keys := 0x8000 } [(0, 15)]).reg 0).toNat < 16 ∧ (0x8000#16).getLsbD 15 = true ∧
    ¬(((withRegs { State.reset with keys := 0xFFFF } [(0, 16)]).reg 0).toNat < 16 ∧ (0xFFFF#16).getLsbD 16 = true) := by
  decide

/-- The highest key, and a held key that is not new. -/
theorem witness_Fx0aCompletesOrWaits : LowestNew 1 0x8001 15 ∧ ∀ k, ¬LowestNew 4 4 k := by
  refine ⟨⟨by decide, by decide, by decide, by decide⟩, ?_⟩
  rintro k ⟨_, h1, h2, _⟩
  rw [h1] at h2
  cases h2

theorem witness_LdVxDtReadsTheDelayTimer : Accepts (at200 0xF307) ∧ Fetches (at200 0xF307) (.ldVxDt 3) :=
  ⟨accepts_at200 _, rfl, by decide, by decide⟩

/-- The first index below the range and the first above it. -/
theorem witness_RegisterAccessorsClamp : ((-1 : Int) < 0 ∨ 16 ≤ (-1 : Int)) ∧ ((16 : Int) < 0 ∨ 16 ≤ (16 : Int)) := by decide

theorem witness_MemoryAccessorsClamp :
    Memory.wf State.reset.mem = true ∧ 4095 < 4096 ∧ (0 ≠ 4095) ∧ ((-1 : Int) < 0 ∨ 4096 ≤ (-1 : Int)) ∧
    ((4096 : Int) < 0 ∨ 4096 ≤ (4096 : Int)) := by decide

end Sys2Proof.Tests
end

section
/-!
PROOFS. The opcode table and the decoder agree (spec/30_encoding.md R104): a word that the decoder reads fits the row of
its instruction, and a word that fits a row is read as an instruction of that row.
-/

namespace Sys2Proof

/-! ## A word is its fields, in the formats with a register field -/

theorem eq_formatXNN (w : Word) : w = formatXNN (famOf w) (xOf w) (nnOf w) := by
  rw [formatXNN, ← nnnOf_eq]
  exact eq_formatA w

theorem eq_formatXYN (w : Word) : w = formatXYN (famOf w) (xOf w) (yOf w) (nOf w) := by
  rw [formatXYN, ← nnOf_eq]
  exact eq_formatXNN w

/-!
## What fitting a row says of the fields, one lemma per mask of the table

The mask names the selecting fields of R105 and R106: all bits (family 0), fam, fam and n (family 8), fam and nn
(families E and F).
-/

theorem fits_maskAll_iff {m : String} {p : Word} (w : Word) :
    OpcodeRow.fits ⟨m, p, 0xFFFF⟩ w = true ↔ famOf w = famOf p ∧ nnnOf w = nnnOf p := by
  have hw : w &&& 0xFFFF = w := BitVec.and_allOnes
  rw [OpcodeRow.fits, hw, beq_iff_eq]
  constructor
  · rintro rfl
    exact ⟨rfl, rfl⟩
  · rintro ⟨hf, hs⟩
    rw [eq_formatA w, hf, hs, ← eq_formatA]

/-- The row's pattern has no bit outside its mask (`hp`), here and in the two lemmas below. -/
theorem fits_maskFamily_iff {m : String} {p : Word} (hp : p &&& 0xF000 = p) (w : Word) :
    OpcodeRow.fits ⟨m, p, 0xF000⟩ w = true ↔ famOf w = famOf p := by
  have masked (v : Word) : v &&& 0xF000 = formatA (famOf v) 0 := by rw [← mask_family _ (nnnOf v), ← eq_formatA]; rfl
  rw [OpcodeRow.fits, ← hp, masked, masked, beq_iff_eq, famOf_formatA]
  exact ⟨fun h => by simpa using congrArg famOf h, fun h => by rw [h]⟩

theorem fits_maskXYN_iff {m : String} {p : Word} (hp : p &&& 0xF00F = p) (w : Word) :
    OpcodeRow.fits ⟨m, p, 0xF00F⟩ w = true ↔ famOf w = famOf p ∧ nOf w = nOf p := by
  have masked (v : Word) : v &&& 0xF00F = formatXYN (famOf v) 0 0 (nOf v) := by
    rw [← mask_familyXYN _ (xOf v) (yOf v), ← eq_formatXYN]; rfl
  rw [OpcodeRow.fits, ← hp, masked, masked, beq_iff_eq, famOf_formatXYN, nOf_formatXYN]
  exact ⟨fun h => ⟨by simpa using congrArg famOf h, by simpa using congrArg nOf h⟩, fun ⟨hf, hs⟩ => by rw [hf, hs]⟩

theorem fits_maskX_iff {m : String} {p : Word} (hp : p &&& 0xF0FF = p) (w : Word) :
    OpcodeRow.fits ⟨m, p, 0xF0FF⟩ w = true ↔ famOf w = famOf p ∧ nnOf w = nnOf p := by
  have masked (v : Word) : v &&& 0xF0FF = formatXNN (famOf v) 0 (nnOf v) := by
    rw [← mask_familyX _ (xOf v), ← eq_formatXNN]; rfl
  rw [OpcodeRow.fits, ← hp, masked, masked, beq_iff_eq, famOf_formatXNN, nnOf_formatXNN]
  exact ⟨fun h => ⟨by simpa using congrArg famOf h, by simpa using congrArg nnOf h⟩, fun ⟨hf, hs⟩ => by rw [hf, hs]⟩

/-! ## A decoded word fits the row of its instruction -/

theorem fits_of_decodeFamily0 {w : Word} {i : Instr} (hf : famOf w = 0x0#4) (h : decodeFamily0 w = .ok i) :
    (rowOf i).fits w = true := by
  unfold decodeFamily0 at h
  split at h <;> cases h
  all_goals exact (fits_maskAll_iff w).2 ⟨hf, ‹_›⟩

theorem fits_of_decodeFamily8 {w : Word} {i : Instr} (hf : famOf w = 0x8#4) (h : decodeFamily8 w = .ok i) :
    (rowOf i).fits w = true := by
  unfold decodeFamily8 at h
  split at h <;> cases h
  all_goals exact (fits_maskXYN_iff (by decide) w).2 ⟨hf, ‹_›⟩

theorem fits_of_decodeFamilyE {w : Word} {i : Instr} (hf : famOf w = 0xE#4) (h : decodeFamilyE w = .ok i) :
    (rowOf i).fits w = true := by
  unfold decodeFamilyE at h
  split at h <;> cases h
  all_goals exact (fits_maskX_iff (by decide) w).2 ⟨hf, ‹_›⟩

theorem fits_of_decodeFamilyF {w : Word} {i : Instr} (hf : famOf w = 0xF#4) (h : decodeFamilyF w = .ok i) :
    (rowOf i).fits w = true := by
  unfold decodeFamilyF at h
  split at h <;> cases h
  all_goals exact (fits_maskX_iff (by decide) w).2 ⟨hf, ‹_›⟩

/-- The nibble that the decoder's last arm is left with. -/
theorem nibble_eq_F {f : BitVec 4} : f ≠ 0x0#4 → f ≠ 0x1#4 → f ≠ 0x2#4 → f ≠ 0x3#4 → f ≠ 0x4#4 → f ≠ 0x5#4 →
    f ≠ 0x6#4 → f ≠ 0x7#4 → f ≠ 0x8#4 → f ≠ 0x9#4 → f ≠ 0xA#4 → f ≠ 0xB#4 → f ≠ 0xC#4 → f ≠ 0xD#4 →
    f ≠ 0xE#4 → f = 0xF#4 := by
  bv_omega

theorem fits_of_decode {w : Word} {i : Instr} (h : decode w = .ok i) : (rowOf i).fits w = true := by
  unfold decode at h
  split at h
  case h_1 hf => exact fits_of_decodeFamily0 hf h
  case h_9 hf => exact fits_of_decodeFamily8 hf h
  case h_15 hf => exact fits_of_decodeFamilyE hf h
  case h_16 => exact fits_of_decodeFamilyF (by apply nibble_eq_F <;> assumption) h
  all_goals
    cases h
    exact (fits_maskFamily_iff (by decide) w).2 ‹_›

/-! ## A word that fits a row is decoded to an instruction of that row -/

theorem decode_map_rowOf_of_fits {w : Word} (j : Instr) (h : (rowOf j).fits w = true) :
    (decode w).map rowOf = .ok (rowOf j) := by
  cases j
  case cls | ret =>
    obtain ⟨hf, hs⟩ := (fits_maskAll_iff w).1 h
    rw [decode, hf, decodeFamily0, hs]; rfl
  case ldReg | or | and | xor | addReg | sub | shr | subn | shl =>
    obtain ⟨hf, hs⟩ := (fits_maskXYN_iff (by decide) w).1 h
    rw [decode, hf, decodeFamily8, hs]; rfl
  case skp | sknp =>
    obtain ⟨hf, hs⟩ := (fits_maskX_iff (by decide) w).1 h
    rw [decode, hf, decodeFamilyE, hs]; rfl
  case ldVxDt | ldVxK | ldDtVx | ldStVx | addIVx | ldFVx | ldBVx | ldMemVx | ldVxMem =>
    obtain ⟨hf, hs⟩ := (fits_maskX_iff (by decide) w).1 h
    rw [decode, hf, decodeFamilyF, hs]; rfl
  all_goals
    have hf := (fits_maskFamily_iff (by decide) w).1 h
    rw [decode, hf]; rfl

/-- Settles O10: a word fits the row of the instruction it decodes to, and any row it fits is the one the decoder,
a function, answers. -/
theorem everyWordIsOneInstructionOrIllegal : Obligations.EveryWordIsOneInstructionOrIllegal := by
  unfold Obligations.EveryWordIsOneInstructionOrIllegal
  intro w
  cases hd : decode w with
  | ok i =>
    refine .inl ⟨i, rfl, fits_of_decode hd, fun j hj => ?_⟩
    have hrow := decode_map_rowOf_of_fits j hj
    rw [hd] at hrow
    exact (Except.ok.inj hrow).symm
  | error e =>
    refine .inr ⟨⟨e, rfl⟩, fun j => Bool.eq_false_iff.2 fun hj => ?_⟩
    have hrow := decode_map_rowOf_of_fits j hj
    rw [hd] at hrow
    cases hrow

end Sys2Proof
end

section
/-!
PROOFS. Jumps (spec/40_control_flow.md R152): an address put in pc is kept whole, and nothing else moves.
-/

namespace Sys2Proof.Machine

/-! ## A 12-bit address as the value of pc -/

@[simp] theorem addrWord_toNat (nnn : Addr) : (addrWord nnn).toNat = nnn.toNat :=
  BitVec.toNat_setWidth_of_le (by decide)

/-- The mask of pc (R34) loses nothing of a 12-bit target. -/
@[simp] theorem maskPc_addrWord (nnn : Addr) : maskPc (addrWord nnn) = addrWord nnn := by
  apply maskPc_of_lt
  rw [addrWord_toNat]
  exact nnn.isLt

theorem setPc_addrWord_pc_toNat (s : State) (nnn : Addr) : (s.setPc (addrWord nnn)).pc.toNat = nnn.toNat := by
  rw [State.setPc_pc, maskPc_addrWord, addrWord_toNat]

theorem setPc_pcOnly (s : State) (v : Word) : PcOnly s (s.setPc v) := rfl

/-! ## JP nnn -/

theorem decode_formatA_jp (nnn : Addr) : decode (formatA 0x1 nnn) = .ok (.jp nnn) := by
  rw [decode, famOf_formatA, nnnOf_formatA]
  rfl

theorem exec_jp_eq_setPc (nnn : Addr) (s : State) : exec (.jp nnn) s = .next (s.setPc (addrWord nnn)) := rfl

/-- Settles O33: the word is read as JP, which is a write of pc alone, with a target the mask keeps. -/
theorem jpSetsPcToTheTarget : Obligations.JpSetsPcToTheTarget := by
  unfold Obligations.JpSetsPcToTheTarget
  exact fun nnn => ⟨decode_formatA_jp nnn, fun s =>
    ⟨s.setPc (addrWord nnn), exec_jp_eq_setPc nnn s, setPc_addrWord_pc_toNat s nnn, setPc_pcOnly s _⟩⟩

end Sys2Proof.Machine
end

section
/-!
PROOFS. Immediate load and add, the bitwise operations and LD I (spec/41_alu_data.md R180, R181, R183 to R185, R191):
each word is read as its instruction, whose meaning is one write of a register, of a result and a flag, or of I.
-/

namespace Sys2Proof.Machine

/-! ## The words -/

theorem decode_formatXNN_ldImm (x : Reg) (nn : Byte) : decode (formatXNN 0x6 x nn) = .ok (.ldImm x nn) := by
  rw [decode, famOf_formatXNN, xOf_formatXNN, nnOf_formatXNN]
  rfl

theorem decode_formatXNN_addImm (x : Reg) (nn : Byte) : decode (formatXNN 0x7 x nn) = .ok (.addImm x nn) := by
  rw [decode, famOf_formatXNN, xOf_formatXNN, nnOf_formatXNN]
  rfl

theorem decode_formatA_ldI (nnn : Addr) : decode (formatA 0xA nnn) = .ok (.ldI nnn) := by
  rw [decode, famOf_formatA, nnnOf_formatA]
  rfl

/-- In family 8 the nibble n selects (R106). -/
theorem decode_formatXYN_family8 (x y : Reg) (n : BitVec 4) :
    decode (formatXYN 0x8 x y n) = decodeFamily8 (formatXYN 0x8 x y n) := by
  rw [decode, famOf_formatXYN]
  rfl

theorem decode_formatXYN_or (x y : Reg) : decode (formatXYN 0x8 x y 0x1) = .ok (.or x y) := by
  rw [decode_formatXYN_family8, decodeFamily8, nOf_formatXYN, xOf_formatXYN, yOf_formatXYN]
  rfl

theorem decode_formatXYN_and (x y : Reg) : decode (formatXYN 0x8 x y 0x2) = .ok (.and x y) := by
  rw [decode_formatXYN_family8, decodeFamily8, nOf_formatXYN, xOf_formatXYN, yOf_formatXYN]
  rfl

theorem decode_formatXYN_xor (x y : Reg) : decode (formatXYN 0x8 x y 0x3) = .ok (.xor x y) := by
  rw [decode_formatXYN_family8, decodeFamily8, nOf_formatXYN, xOf_formatXYN, yOf_formatXYN]
  rfl

/-! ## The meanings, as writes -/

theorem exec_ldImm_eq_setReg (x : Reg) (nn : Byte) (s : State) : exec (.ldImm x nn) s = .next (s.setReg x nn) := rfl

theorem exec_addImm_eq_setReg (x : Reg) (nn : Byte) (s : State) :
    exec (.addImm x nn) s = .next (s.setReg x (s.reg x + nn)) := rfl

theorem exec_or_eq_setResultFlag (x y : Reg) (s : State) :
    exec (.or x y) s = .next (s.setResultFlag x (s.reg x ||| s.reg y) 0) := rfl

theorem exec_and_eq_setResultFlag (x y : Reg) (s : State) :
    exec (.and x y) s = .next (s.setResultFlag x (s.reg x &&& s.reg y) 0) := rfl

theorem exec_xor_eq_setResultFlag (x y : Reg) (s : State) :
    exec (.xor x y) s = .next (s.setResultFlag x (s.reg x ^^^ s.reg y) 0) := rfl

theorem exec_ldI_eq_setIndex (nnn : Addr) (s : State) : exec (.ldI nnn) s = .next (s.setIndex (addrWord nnn)) := rfl

/-! ## What the writes leave -/

/-- The flag is written last (R199), so VF holds it for every x, 0xF too. -/
@[simp] theorem reg_setResultFlag_flag (s : State) (x : Reg) (v f : Byte) : (s.setResultFlag x v f).reg 15#4 = f := by
  rw [reg_setResultFlag, if_pos rfl]

theorem reg_setResultFlag_result (s : State) {x : Reg} (hx : x ≠ 15#4) (v f : Byte) :
    (s.setResultFlag x v f).reg x = v := by
  rw [reg_setResultFlag, if_neg hx, if_pos rfl]

theorem setIndex_addrWord_I_toNat (s : State) (nnn : Addr) : (s.setIndex (addrWord nnn)).I.toNat = nnn.toNat := by
  rw [State.setIndex_I, addrWord_toNat]

theorem setIndex_indexOnly (s : State) (v : Word) : IndexOnly s (s.setIndex v) := rfl

/-! ## The obligations -/

/-- Settles O40: all three write a result and then the flag 0; bit k of the result is the operation on bits k. -/
theorem logicOpsClearVf : Obligations.LogicOpsClearVf := by
  unfold Obligations.LogicOpsClearVf
  intro x y
  refine ⟨decode_formatXYN_or x y, decode_formatXYN_and x y, decode_formatXYN_xor x y, fun s => ?_⟩
  refine ⟨_, _, _, exec_or_eq_setResultFlag x y s, exec_and_eq_setResultFlag x y s, exec_xor_eq_setResultFlag x y s,
    reg_setResultFlag_flag .., reg_setResultFlag_flag .., reg_setResultFlag_flag .., fun hx k _ => ?_,
    regsOnly_setResultFlag .., regsOnly_setResultFlag .., regsOnly_setResultFlag ..⟩
  simp only [reg_setResultFlag_result s hx]
  exact ⟨BitVec.getLsbD_or, BitVec.getLsbD_and, BitVec.getLsbD_xor⟩

/-- Settles O37: LD Vx, nn is one register write. -/
theorem ldImmWritesTheByte : Obligations.LdImmWritesTheByte := by
  unfold Obligations.LdImmWritesTheByte
  exact fun x nn => ⟨decode_formatXNN_ldImm x nn, fun s =>
    ⟨s.setReg x nn, exec_ldImm_eq_setReg x nn s, reg_setReg_same s x nn, regsOnly_setReg s x nn⟩⟩

/-- Settles O38: ADD Vx, nn is one register write, of a sum of bytes, which wraps. -/
theorem addImmWrapsAndLeavesVf : Obligations.AddImmWrapsAndLeavesVf := by
  unfold Obligations.AddImmWrapsAndLeavesVf
  intro x nn
  refine ⟨decode_formatXNN_addImm x nn, fun s =>
    ⟨s.setReg x (s.reg x + nn), exec_addImm_eq_setReg x nn s, ?_, regsOnly_setReg s x _⟩⟩
  rw [reg_setReg_same]
  exact BitVec.toNat_add (s.reg x) nn

/-- Settles O45: LD I, nnn is a write of I alone, with an address that 16 bits hold whole. -/
theorem ldIWritesTheAddress : Obligations.LdIWritesTheAddress := by
  unfold Obligations.LdIWritesTheAddress
  exact fun nnn => ⟨decode_formatA_ldI nnn, fun s => ⟨s.setIndex (addrWord nnn), exec_ldI_eq_setIndex nnn s,
    setIndex_addrWord_I_toNat s nnn, setIndex_indexOnly s _⟩⟩

end Sys2Proof.Machine
end

section
/-!
PROOFS. CLS (spec/42_drawing.md R240): the word is read as CLS, which is a write of the framebuffer alone, with rows of
which every cell is 0.
-/

namespace Sys2Proof.Machine

/-- Every cell of a framebuffer of zero rows is 0; so is one outside it, which `cell` reads as 0. -/
@[simp] theorem cell_replicate_zero (row col : Nat) : cell (Vector.replicate 32 0) row col = false := by
  rw [cell, Vector.getElem?_replicate]
  split <;> exact BitVec.getLsbD_zero

theorem decode_00E0_cls : decode 0x00E0 = .ok .cls := rfl

theorem exec_cls_eq_setFb (s : State) : exec .cls s = .next (s.setFb (Vector.replicate 32 0)) := rfl

theorem setFb_fbOnly (s : State) (fb : Framebuffer) : s.setFb fb = { s with fb := (s.setFb fb).fb } := rfl

/-- Settles O50: CLS is one framebuffer write, of zero rows. -/
theorem clsBlanksEveryCell : Obligations.ClsBlanksEveryCell := by
  unfold Obligations.ClsBlanksEveryCell
  refine ⟨decode_00E0_cls, fun s => ⟨_, exec_cls_eq_setFb s, setFb_fbOnly s _, fun row col _ _ => ?_⟩⟩
  rw [State.setFb_fb]
  exact cell_replicate_zero row col

end Sys2Proof.Machine
end

section
/-!
PROOFS. Timer writes (spec/44_timers.md R281 to R283): the words are read as FX15 and FX18, each a write of one timer;
the step that executes one samples the sound and decays the timers after that write.
-/

namespace Sys2Proof.Machine

/-! ## The words -/

/-- In family F the byte nn selects (R106). -/
theorem decode_formatXNN_familyF (x : Reg) (nn : Byte) :
    decode (formatXNN 0xF x nn) = decodeFamilyF (formatXNN 0xF x nn) := by
  rw [decode, famOf_formatXNN]
  rfl

theorem decode_formatXNN_ldDtVx (x : Reg) : decode (formatXNN 0xF x 0x15) = .ok (.ldDtVx x) := by
  rw [decode_formatXNN_familyF, decodeFamilyF, nnOf_formatXNN, xOf_formatXNN]
  rfl

theorem decode_formatXNN_ldStVx (x : Reg) : decode (formatXNN 0xF x 0x18) = .ok (.ldStVx x) := by
  rw [decode_formatXNN_familyF, decodeFamilyF, nnOf_formatXNN, xOf_formatXNN]
  rfl

/-! ## The meanings, as writes -/

theorem exec_ldDtVx_eq_setDelay (x : Reg) (s : State) : exec (.ldDtVx x) s = .next (s.setDelay (s.reg x)) := rfl

theorem exec_ldStVx_eq_setSound (x : Reg) (s : State) : exec (.ldStVx x) s = .next (s.setSound (s.reg x)) := rfl

/-! ## The step that executes an instruction -/

@[simp] theorem entered_reg (s : State) (r : Reg) : s.entered.reg r = s.reg r := reg_congr rfl r

/-- Phase 3 of a step that fetches an instruction is its meaning in the entered state (R141, R142). -/
theorem phase3_of_fetches {s : State} {i : Instr} (h : Fetches s i) :
    (s.popCall.latchKeys s.nextArgs.keys).phase3 = exec i s.entered := by
  obtain ⟨hwait, heven, hdecode⟩ := h
  have hw : (s.popCall.latchKeys s.nextArgs.keys).wait = none := hwait
  have hf : (s.popCall.latchKeys s.nextArgs.keys).fetch = .ok i := fetch_eq_ok.2 ⟨heven, hdecode⟩
  simp only [State.phase3, hw, State.runInstr, hf, entered_eq]

/-- A step whose instruction goes on answers the finished state (R141). -/
theorem step_of_exec_next {s u : State} {i : Instr} (ha : Accepts s) (hf : Fetches s i)
    (hx : exec i s.entered = .next u) : step s = .next (u.finish (s.tickOf s.nextArgs)) := by
  rw [step_of_accepts ha, State.runStep, phase3_of_fetches hf, hx]

/-! ## The decay at the end of the step -/

/-- No instruction writes the recorded tick, so the decay after one counts the ticks since the previous step (R320). -/
theorem tickDelta_of_exec_next {s u : State} {i : Instr} (hx : exec i s.entered = .next u) :
    u.tickDelta (s.tickOf s.nextArgs) = s.elapsed := by
  obtain ⟨-, -, hlast, -⟩ := exec_unwritten hx
  have hlast : u.lastTick = s.lastTick := hlast
  rw [State.elapsed, State.tickDelta, State.tickDelta, hlast]

theorem finish_DT_toNat_of_exec_next {s u : State} {i : Instr} (hx : exec i s.entered = .next u) :
    (u.finish (s.tickOf s.nextArgs)).DT.toNat = u.DT.toNat - min u.DT.toNat s.elapsed := by
  rw [State.finish_DT, decayed_toNat, tickDelta_of_exec_next hx]

theorem finish_ST_toNat_of_exec_next {s u : State} {i : Instr} (hx : exec i s.entered = .next u) :
    (u.finish (s.tickOf s.nextArgs)).ST.toNat = u.ST.toNat - min u.ST.toNat s.elapsed := by
  rw [State.finish_ST, decayed_toNat, tickDelta_of_exec_next hx]

/-! ## The steps of FX15 and FX18 -/

/-- The step of FX15 decays the value it has written (R281, R283). -/
theorem step_ldDtVx {s : State} {x : Reg} (ha : Accepts s) (hf : Fetches s (.ldDtVx x)) :
    ∃ t, step s = .next t ∧ t.DT.toNat = (s.reg x).toNat - min (s.reg x).toNat s.elapsed := by
  have hx := exec_ldDtVx_eq_setDelay x s.entered
  refine ⟨_, step_of_exec_next ha hf hx, ?_⟩
  rw [finish_DT_toNat_of_exec_next hx, State.setDelay_DT, entered_reg]

/-- The step of FX18 samples the value it has written, and then decays it (R282, R283). -/
theorem step_ldStVx {s : State} {x : Reg} (ha : Accepts s) (hf : Fetches s (.ldStVx x)) :
    ∃ t, step s = .next t ∧ t.reply = some (.ok (decide ((s.reg x).toNat > 1))) ∧
      t.ST.toNat = (s.reg x).toNat - min (s.reg x).toNat s.elapsed := by
  have hx := exec_ldStVx_eq_setSound x s.entered
  refine ⟨_, step_of_exec_next ha hf hx, ?_, ?_⟩
  · rw [State.finish_reply, State.soundOn, State.setSound_ST, entered_reg]
  · rw [finish_ST_toNat_of_exec_next hx, State.setSound_ST, entered_reg]

/-- Settles O23: the words decode, the meanings write one timer each, and their steps sample and decay what was
written. -/
theorem timerWritesAreSampledThenDecay : Obligations.TimerWritesAreSampledThenDecay := by
  unfold Obligations.TimerWritesAreSampledThenDecay
  exact fun x => ⟨decode_formatXNN_ldDtVx x, decode_formatXNN_ldStVx x, exec_ldDtVx_eq_setDelay x,
    exec_ldStVx_eq_setSound x, fun _ => step_ldDtVx, fun _ => step_ldStVx⟩

end Sys2Proof.Machine
end

section
/-!
PROOFS. The sound output (spec/60_exceptions.md R322): a step that finishes replies by the sound timer as it stands before
the decay, which has the value from before the step unless the step executes FX18.
-/

namespace Sys2Proof.Machine

/-- A finished step samples the sound timer as the instruction or wait phase left it (R322). -/
theorem finish_reply_of_ST {u : State} {v : Byte} (h : u.ST = v) (tick : Nat) :
    (u.finish tick).reply = some (.ok (decide (v.toNat > 1))) := by
  rw [State.finish_reply, State.soundOn, h]

/-- No instruction but FX18 writes the sound timer (R282). -/
theorem exec_ST_of_ne_ldStVx {i : Instr} {s u : State} (hx : exec i s = .next u) (hi : ∀ x, i ≠ .ldStVx x) :
    u.ST = s.ST :=
  (exec_timers hx).2.resolve_right fun ⟨x, hix, _⟩ => hi x hix

theorem waitPhase_ST (s : State) (r : Reg) : (s.waitPhase r).ST = s.ST := by
  obtain ⟨-, -, -, -, -, hST, -⟩ := waitPhase_unwritten s r
  exact hST

theorem step_reply_of_fetches_ldStVx {s t : State} {x : Reg} (h : step s = .next t) (hf : Fetches s (.ldStVx x)) :
    t.reply = some (.ok (decide ((s.reg x).toNat > 1))) := by
  obtain ⟨t', ht', hreply, -⟩ := step_ldStVx (accepts_of_step_next h) hf
  obtain rfl : t = t' := Host.Outcome.next.inj (h.symm.trans ht')
  exact hreply

/-- An instruction that is no FX18, and a wait phase, finish with the ST from before the step; a taken fault latches. -/
theorem step_reply_of_not_fetches_ldStVx {s t : State} (h : step s = .next t) (hfault : t.fault = none)
    (hf : ∀ x, ¬Fetches s (.ldStVx x)) : t.reply = some (.ok (decide (s.ST.toNat > 1))) := by
  rcases step_next_spec h with ⟨i, u, hi, hx, rfl⟩ | ⟨r, -, rfl⟩ | ⟨f, -, rfl⟩
  · exact finish_reply_of_ST (exec_ST_of_ne_ldStVx hx fun x hix => hf x (hix ▸ hi)) _
  · exact finish_reply_of_ST (waitPhase_ST _ r) _
  · rw [State.takeFault_fault] at hfault
    cases hfault

/-- Settles O22: by whether the step executes FX18. -/
theorem soundIsSampledBeforeTheDecay : Obligations.SoundIsSampledBeforeTheDecay := by
  unfold Obligations.SoundIsSampledBeforeTheDecay
  exact fun s t h hfault => ⟨fun x => step_reply_of_fetches_ldStVx h, step_reply_of_not_fetches_ldStVx h hfault⟩

end Sys2Proof.Machine
end

section
/-!
PROOFS. The debug accessors of registers and memory (spec/60_exceptions.md R334, R335): inside the range each is the read
or the write of that register or byte, outside it a read gives 0 and a write keeps the state.
-/

namespace Sys2Proof.Machine

/-! ## Registers -/

theorem regIndex_inRange (r : Reg) : 0 ≤ (r.toNat : Int) ∧ (r.toNat : Int) < 16 := by
  have := r.isLt
  omega

theorem reg_ofNat_cast_toNat (r : Reg) : BitVec.ofNat 4 (r.toNat : Int).toNat = r := by
  rw [Int.toNat_natCast, BitVec.ofNat_toNat, BitVec.setWidth_eq]

theorem getReg_toNat (s : State) (r : Reg) : s.getReg r.toNat = s.reg r := by
  rw [State.getReg, if_pos (regIndex_inRange r), reg_ofNat_cast_toNat]

theorem debugSetReg_toNat (s : State) (r : Reg) (v : Byte) : s.debugSetReg r.toNat v = s.setReg r v := by
  rw [State.debugSetReg, if_pos (regIndex_inRange r), reg_ofNat_cast_toNat]

theorem getReg_outOfRange (s : State) {i : Int} (h : i < 0 ∨ 16 ≤ i) : s.getReg i = 0 :=
  if_neg (by omega)

theorem debugSetReg_outOfRange (s : State) {i : Int} (h : i < 0 ∨ 16 ≤ i) (v : Byte) : s.debugSetReg i v = s :=
  if_neg (by omega)

theorem perform_getReg (i : Int) (s : State) : perform (.getReg i) s = (.byte (s.getReg i), s) := rfl

theorem perform_setReg (i : Int) (v : Byte) (s : State) : perform (.setReg i v) s = (.done, s.debugSetReg i v) := rfl

/-- Settles O56: in range both are the register operations of R13, out of range both do nothing. -/
theorem registerAccessorsClamp : Obligations.RegisterAccessorsClamp := by
  unfold Obligations.RegisterAccessorsClamp
  intro s v
  refine ⟨fun r => ⟨?_, s.setReg r v, ?_, reg_setReg_same s r v, regsOnly_setReg s r v⟩, fun i hi => ⟨?_, ?_⟩⟩
  · rw [perform_getReg, getReg_toNat]
  · rw [perform_setReg, debugSetReg_toNat]
  · rw [perform_getReg, getReg_outOfRange s hi]
  · rw [perform_setReg, debugSetReg_outOfRange s hi]

/-! ## Memory -/

theorem getMem_natCast (s : State) {a : Nat} (ha : a < 4096) : s.getMem a = s.load8 a := by
  rw [State.getMem, if_pos (by omega), Int.toNat_natCast, State.load8, Nat.mod_eq_of_lt ha]

theorem debugSetMem_natCast (s : State) {a : Nat} (ha : a < 4096) (v : Byte) : s.debugSetMem a v = s.store8 a v := by
  rw [State.debugSetMem, if_pos (by omega), Int.toNat_natCast, State.store8, Nat.mod_eq_of_lt ha]

theorem getMem_outOfRange (s : State) {a : Int} (h : a < 0 ∨ 4096 ≤ a) : s.getMem a = 0 :=
  if_neg (by omega)

theorem debugSetMem_outOfRange (s : State) {a : Int} (h : a < 0 ∨ 4096 ≤ a) (v : Byte) : s.debugSetMem a v = s :=
  if_neg (by omega)

/-- A byte read after a byte written, both at addresses below 4096 (R77). -/
theorem load8_store8 {s : State} (hs : Memory.wf s.mem = true) {a b : Nat} (ha : a < 4096) (hb : b < 4096) (v : Byte) :
    (s.store8 a v).load8 b = if b = a then v else s.load8 b := by
  rw [State.load8, State.store8_mem, Memory.read_write hs, State.load8, Nat.mod_eq_of_lt ha, Nat.mod_eq_of_lt hb]

theorem store8_memOnly (s : State) (a : Nat) (v : Byte) : s.store8 a v = { s with mem := (s.store8 a v).mem } := rfl

theorem perform_getMem (a : Int) (s : State) : perform (.getMem a) s = (.byte (s.getMem a), s) := rfl

theorem perform_setMem (a : Int) (v : Byte) (s : State) : perform (.setMem a v) s = (.done, s.debugSetMem a v) := rfl

/-- Settles O57: in range both are the byte operations of R13, out of range both do nothing. -/
theorem memoryAccessorsClamp : Obligations.MemoryAccessorsClamp := by
  unfold Obligations.MemoryAccessorsClamp
  intro s v hs
  refine ⟨fun a ha => ⟨?_, s.store8 a v, ?_, store8_memOnly s a v, ?_, fun b hb hne => ?_⟩, fun a ha => ⟨?_, ?_⟩⟩
  · rw [perform_getMem, getMem_natCast s ha]
  · rw [perform_setMem, debugSetMem_natCast s ha]
  · rw [load8_store8 hs ha ha, if_pos rfl]
  · rw [load8_store8 hs ha hb, if_neg hne]
  · rw [perform_getMem, getMem_outOfRange s ha]
  · rw [perform_setMem, debugSetMem_outOfRange s ha]

end Sys2Proof.Machine
end

section
/-!
PROOFS. Who writes the framebuffer (spec/10_state.md R41, spec/60_exceptions.md R326, R336): a step that executes CLS or
DRW, and no accessor.
-/

namespace Sys2Proof.Machine

theorem waitPhase_fb (s : State) (r : Reg) : (s.waitPhase r).fb = s.fb := by
  obtain ⟨-, hfb, -⟩ := waitPhase_unwritten s r
  exact hfb

theorem step_fb {s t : State} (h : step s = .next t) :
    t.fb = s.fb ∨ Fetches s .cls ∨ ∃ x y n, Fetches s (.drw x y n) := by
  rcases step_next_spec h with ⟨i, u, hi, hx, rfl⟩ | ⟨r, -, rfl⟩ | ⟨f, -, rfl⟩
  · rcases exec_fb hx with hfb | rfl | ⟨x, y, n, rfl⟩
    · exact .inl hfb
    · exact .inr (.inl hi)
    · exact .inr (.inr ⟨x, y, n, hi⟩)
  · exact .inl (waitPhase_fb _ r)
  · exact .inl rfl

theorem debugSetReg_fb (s : State) (i : Int) (v : Byte) : (s.debugSetReg i v).fb = s.fb := by
  unfold State.debugSetReg
  split <;> rfl

theorem debugSetMem_fb (s : State) (a : Int) (v : Byte) : (s.debugSetMem a v).fb = s.fb := by
  unfold State.debugSetMem
  split <;> rfl

/-- An operation that is neither `load` nor `step` keeps the framebuffer. -/
theorem perform_accessor_fb {op : HostOp} (s : State) (hload : ∀ p, op ≠ .load p) (hstep : ∀ a, op ≠ .step a) :
    (perform op s).2.fb = s.fb := by
  cases op with
  | load p => exact absurd rfl (hload p)
  | step a => exact absurd rfl (hstep a)
  | setPc v => exact State.setPc_fb s v
  | setIndex v => exact State.setIndex_fb s v
  | setReg i v => exact debugSetReg_fb s i v
  | setMem a v => exact debugSetMem_fb s a v
  | getPc | getIndex | getReg | getMem | readFb => rfl

theorem perform_readFb (s : State) : perform .readFb s = (.grid s.fb, s) := rfl

/-- Settles O26: a step moves the framebuffer by CLS or DRW alone, the accessors never. -/
theorem framebufferIsWrittenOnlyByClsAndDrw : Obligations.FramebufferIsWrittenOnlyByClsAndDrw := by
  unfold Obligations.FramebufferIsWrittenOnlyByClsAndDrw
  exact ⟨fun s t h hne => (step_fb h).resolve_left hne, fun op s => perform_accessor_fb s, perform_readFb⟩

end Sys2Proof.Machine
end

section
/-!
PROOFS. Decoder and encoder (spec/30_encoding.md R101, R107, R108, R110 to R112): decoding an encoded instruction gives it
back, encoding a decoded word gives the word back but for the low nibble of families 5 and 9, and the illegal words are
those of the four lists of R108.
-/

namespace Sys2Proof

/-! ## The word of an instruction decodes to it -/

/-- The fields that select in `decode` are the constants the encoder wrote; the others are the operands. BNNN's `x` is
read from the bits of its `nnn`, which is what well-formedness says of the two. -/
theorem decode_encode (i : Instr) (h : i.wf = true) : decode (encode i) = .ok i := by
  cases i
  case cls | ret => rfl
  case jp | call | ldI => rw [encode, decode, famOf_formatA, nnnOf_formatA]; rfl
  case jpV0 x nnn =>
    obtain rfl : x = nnn.extractLsb' 8 4 := eq_of_beq h
    rw [encode, decode, famOf_formatA, nnnOf_formatA, xOf_formatA]; rfl
  case seImm | sneImm | ldImm | addImm | rnd =>
    rw [encode, decode, famOf_formatXNN, xOf_formatXNN, nnOf_formatXNN]; rfl
  case seReg | sneReg | drw => rw [encode, decode, famOf_formatXYN, xOf_formatXYN, yOf_formatXYN, nOf_formatXYN]; rfl
  case ldReg | or | and | xor | addReg | sub | shr | subn | shl =>
    rw [encode, decode, famOf_formatXYN, decodeFamily8, nOf_formatXYN, xOf_formatXYN, yOf_formatXYN]; rfl
  case skp | sknp => rw [encode, decode, famOf_formatXNN, decodeFamilyE, nnOf_formatXNN, xOf_formatXNN]; rfl
  case ldVxDt | ldVxK | ldDtVx | ldStVx | addIVx | ldFVx | ldBVx | ldMemVx | ldVxMem =>
    rw [encode, decode, famOf_formatXNN, decodeFamilyF, nnOf_formatXNN, xOf_formatXNN]; rfl

theorem decodeBytes_encodeBytes (i : Instr) (h : i.wf = true) : decodeBytes (encodeBytes i) = .ok (i, []) := by
  rw [encodeBytes, decodeBytes, wordOfBytes_bytes, decode_encode i h]
  rfl

/-- Settles O8: as words by the fields of each format, as bytes because the two bytes put together are the word. -/
theorem decodeOfEncodeIsTheInstruction : Obligations.DecodeOfEncodeIsTheInstruction := by
  unfold Obligations.DecodeOfEncodeIsTheInstruction
  exact fun i h => ⟨decode_encode i h, decodeBytes_encodeBytes i h⟩

/-! ## The word that was decoded, put together again from its fields -/

theorem formatA_of_fields {w : Word} {f : BitVec 4} {a : Addr} (hf : famOf w = f) (ha : nnnOf w = a) :
    formatA f a = w := by
  rw [← hf, ← ha, ← eq_formatA]

theorem formatXNN_of_fields {w : Word} {f : BitVec 4} {nn : Byte} (hf : famOf w = f) (hnn : nnOf w = nn) :
    formatXNN f (xOf w) nn = w := by
  rw [← hf, ← hnn, ← eq_formatXNN]

theorem formatXYN_of_fields {w : Word} {f n : BitVec 4} (hf : famOf w = f) (hn : nOf w = n) :
    formatXYN f (xOf w) (yOf w) n = w := by
  rw [← hf, ← hn, ← eq_formatXYN]

/-- Clearing the low nibble of a word clears its field `n`. -/
theorem clearLow_formatXYN (f : BitVec 4) (x y : Reg) (n : BitVec 4) :
    formatXYN f x y n &&& 0xFFF0#16 = formatXYN f x y 0 := by
  apply BitVec.eq_of_getLsbD_eq
  intro i hi
  rw [BitVec.getLsbD_and]
  simp only [formatXYN, formatXNN, getLsbD_word, getLsbD_addr, getLsbD_byte]
  interval_cases i <;> simp

theorem formatXYN_clearLow {w : Word} {f : BitVec 4} (hf : famOf w = f) :
    formatXYN f (xOf w) (yOf w) 0 = w &&& 0xFFF0#16 := by
  rw [← clearLow_formatXYN f (xOf w) (yOf w) (nOf w), formatXYN_of_fields hf rfl]

/-! ## Encoding a decoded word, one lemma per family with a second selecting field -/

theorem encode_of_decodeFamily0 {w : Word} {i : Instr} (hf : famOf w = 0x0#4) (h : decodeFamily0 w = .ok i) :
    i.wf = true ∧ encode i = w := by
  unfold decodeFamily0 at h
  split at h <;> cases h
  all_goals
    have hw := formatA_of_fields hf ‹_›
    exact ⟨rfl, hw⟩

theorem encode_of_decodeFamily8 {w : Word} {i : Instr} (hf : famOf w = 0x8#4) (h : decodeFamily8 w = .ok i) :
    i.wf = true ∧ encode i = w := by
  unfold decodeFamily8 at h
  split at h <;> cases h
  all_goals exact ⟨rfl, formatXYN_of_fields hf ‹_›⟩

theorem encode_of_decodeFamilyE {w : Word} {i : Instr} (hf : famOf w = 0xE#4) (h : decodeFamilyE w = .ok i) :
    i.wf = true ∧ encode i = w := by
  unfold decodeFamilyE at h
  split at h <;> cases h
  all_goals exact ⟨rfl, formatXNN_of_fields hf ‹_›⟩

theorem encode_of_decodeFamilyF {w : Word} {i : Instr} (hf : famOf w = 0xF#4) (h : decodeFamilyF w = .ok i) :
    i.wf = true ∧ encode i = w := by
  unfold decodeFamilyF at h
  split at h <;> cases h
  all_goals exact ⟨rfl, formatXNN_of_fields hf ‹_›⟩

theorem nnnOf_high (w : Word) : (nnnOf w).extractLsb' 8 4 = xOf w := by
  rw [nnnOf_eq, addr_high]

theorem encode_of_decode {w : Word} {i : Instr} (h : decode w = .ok i) (h5 : famOf w ≠ 5) (h9 : famOf w ≠ 9) :
    i.wf = true ∧ encode i = w := by
  unfold decode at h
  split at h
  case h_1 hf => exact encode_of_decodeFamily0 hf h
  case h_9 hf => exact encode_of_decodeFamily8 hf h
  case h_15 hf => exact encode_of_decodeFamilyE hf h
  case h_16 => exact encode_of_decodeFamilyF (by apply nibble_eq_F <;> assumption) h
  case h_6 hf => exact absurd hf h5
  case h_10 hf => exact absurd hf h9
  all_goals cases h
  case h_2 hf | h_3 hf | h_11 hf => exact ⟨rfl, formatA_of_fields hf rfl⟩
  case h_12 hf => exact ⟨beq_iff_eq.2 (nnnOf_high w).symm, formatA_of_fields hf rfl⟩
  case h_14 hf => exact ⟨rfl, formatXYN_of_fields hf rfl⟩
  all_goals exact ⟨rfl, formatXNN_of_fields ‹_› rfl⟩

theorem encode_of_decode_registerSkip {w : Word} {i : Instr} (h : decode w = .ok i)
    (hf : famOf w = 5 ∨ famOf w = 9) : i.wf = true ∧ encode i = w &&& 0xFFF0#16 := by
  rcases hf with hf | hf
  all_goals
    rw [decode, hf] at h
    cases h
    exact ⟨rfl, formatXYN_clearLow hf⟩

/-- Settles O9: the encoder writes the fields back that the decoder read, and 0 where families 5 and 9 read none. -/
theorem encodeOfDecodeIsTheWord : Obligations.EncodeOfDecodeIsTheWord := by
  unfold Obligations.EncodeOfDecodeIsTheWord
  intro w i h
  refine ⟨?_, fun h5 h9 => (encode_of_decode h h5 h9).2, fun hf => (encode_of_decode_registerSkip h hf).2⟩
  by_cases hf : famOf w = 5 ∨ famOf w = 9
  · exact (encode_of_decode_registerSkip h hf).1
  · exact (encode_of_decode h (fun h5 => hf (.inl h5)) (fun h9 => hf (.inr h9))).1

/-! ## The illegal words -/

theorem decodeFamily0_eq_error_iff (w : Word) :
    (∃ e, decodeFamily0 w = .error e) ↔ nnnOf w ≠ 0x0E0 ∧ nnnOf w ≠ 0x0EE := by
  unfold decodeFamily0
  split <;> simp_all

/-- The seven values of `n` that the decoder's last arm for family 8 is left with. -/
theorem nibble_illegal_family8 : ∀ n : BitVec 4, n ≠ 0x0#4 → n ≠ 0x1#4 → n ≠ 0x2#4 → n ≠ 0x3#4 → n ≠ 0x4#4 →
    n ≠ 0x5#4 → n ≠ 0x6#4 → n ≠ 0x7#4 → n ≠ 0xE#4 →
    n = 0x8 ∨ n = 0x9 ∨ n = 0xA ∨ n = 0xB ∨ n = 0xC ∨ n = 0xD ∨ n = 0xF := by
  bv_omega

theorem decodeFamily8_eq_error_iff (w : Word) :
    (∃ e, decodeFamily8 w = .error e) ↔
      nOf w = 0x8 ∨ nOf w = 0x9 ∨ nOf w = 0xA ∨ nOf w = 0xB ∨ nOf w = 0xC ∨ nOf w = 0xD ∨ nOf w = 0xF := by
  unfold decodeFamily8
  split
  case h_10 => exact ⟨fun _ => by apply nibble_illegal_family8 <;> assumption, fun _ => ⟨_, rfl⟩⟩
  all_goals simp_all

theorem decodeFamilyE_eq_error_iff (w : Word) :
    (∃ e, decodeFamilyE w = .error e) ↔ nnOf w ≠ 0x9E ∧ nnOf w ≠ 0xA1 := by
  unfold decodeFamilyE
  split <;> simp_all

theorem decodeFamilyF_eq_error_iff (w : Word) :
    (∃ e, decodeFamilyF w = .error e) ↔
      nnOf w ≠ 0x07 ∧ nnOf w ≠ 0x0A ∧ nnOf w ≠ 0x15 ∧ nnOf w ≠ 0x18 ∧ nnOf w ≠ 0x1E ∧ nnOf w ≠ 0x29 ∧ nnOf w ≠ 0x33 ∧
        nnOf w ≠ 0x55 ∧ nnOf w ≠ 0x65 := by
  unfold decodeFamilyF
  split <;> simp_all

/-- Settles O11: only the four families with a second selecting field have illegal words, each the list of its own. -/
theorem illegalWordsAreTheListedOnes : Obligations.IllegalWordsAreTheListedOnes := by
  unfold Obligations.IllegalWordsAreTheListedOnes
  intro w
  rw [← decodeFamily0_eq_error_iff, ← decodeFamily8_eq_error_iff, ← decodeFamilyE_eq_error_iff,
    ← decodeFamilyF_eq_error_iff]
  unfold decode
  split
  case h_16 =>
    have hf : famOf w = 0xF#4 := by apply nibble_eq_F <;> assumption
    simp [hf]
  all_goals simp_all

/-! ## Words that the spec writes out -/

/-- Settles O12: the decoder reads each word. -/
theorem wordsOfTheSpecDecode : Obligations.WordsOfTheSpecDecode := by
  unfold Obligations.WordsOfTheSpecDecode
  decide

end Sys2Proof
end

section
/-!
PROOFS. The step (spec/40_control_flow.md R141 to R143, spec/60_exceptions.md R301 to R305, R320, R338): what the guard
answers, the step that runs an instruction or takes a fault at the fetch, and what every step without a fault does to the
inputs and the timers.
-/

namespace Sys2Proof.Machine

/-! ## The guard -/

theorem tickRegresses_eq_true_iff (s : State) (n : Nat) :
    s.tickRegresses n = true ↔ ∃ t0, s.lastTick = some t0 ∧ n < t0 := by
  unfold State.tickRegresses
  split <;> simp_all

theorem tickRegresses_eq_false_iff (s : State) (n : Nat) :
    s.tickRegresses n = false ↔ ∀ t0, s.lastTick = some t0 → t0 ≤ n := by
  rw [← Bool.not_eq_true, tickRegresses_eq_true_iff]
  simp

/-- The guard refuses every step of an engine that holds no program (R338). -/
theorem stepWith_of_unloaded {s : State} (hl : s.loaded = false) (a : StepArgs) :
    stepWith a s = .refused .unloaded := by
  rw [stepWith, if_pos hl]

/-- The guard answers a latched fault (R305). -/
theorem stepWith_of_latched {s : State} {k : FaultKind} (hl : s.loaded = true) (hk : s.fault = some k) (a : StepArgs) :
    stepWith a s = .fault (.latched k) := by
  rw [stepWith, if_neg (by simp [hl]), hk]

/-- A step that the guard lets through answers a next state (R141, R305). -/
theorem exists_step_next {s : State} (h : Accepts s) : ∃ t, step s = .next t := by
  rw [step_of_accepts h]
  rcases runStep_cases s.popCall s.nextArgs.keys (s.tickOf s.nextArgs) with ⟨t, -, ht⟩ | ⟨f, -, hf⟩
  · exact ⟨_, ht⟩
  · exact ⟨_, hf⟩

/-- The guard's answers to the next call of the host, with what each one rests on. -/
theorem step_cases (s : State) :
    (s.loaded = false ∧ step s = .refused .unloaded) ∨
    (s.loaded = true ∧ ∃ k, s.fault = some k ∧ step s = .fault (.latched k)) ∨
    (s.loaded = true ∧ s.fault = none ∧ s.tickRegresses (s.tickOf s.nextArgs) = true ∧
      step s = .refused .tickRegression) ∨
    (Accepts s ∧ ∃ t, step s = .next t) := by
  rcases stepWith_cases s.nextArgs s.popCall with h | h | h | ⟨hl, hf, ht, -⟩
  · exact .inl h
  · exact .inr (.inl h)
  · exact .inr (.inr (.inl h))
  · exact .inr (.inr (.inr ⟨⟨hl, hf, ht⟩, exists_step_next ⟨hl, hf, ht⟩⟩))

/-- Settles O19: by the guard's four answers. -/
theorem stepStopsExactlyWhereTheGuardSays : Obligations.StepStopsExactlyWhereTheGuardSays := by
  unfold Obligations.StepStopsExactlyWhereTheGuardSays
  intro s
  have hregress := tickRegresses_eq_true_iff s (s.tickOf s.nextArgs)
  rw [State.tickOf] at hregress
  rw [← hregress, ← State.tickOf]
  rcases step_cases s with ⟨hl, hs⟩ | ⟨hl, k, hk, hs⟩ | ⟨hl, hk, ht, hs⟩ | ⟨⟨hl, hk, ht⟩, t, hs⟩
  · simp [hs, hl, eq_comm (a := Refusal.unloaded)]
  · simp [hs, hl, hk, eq_comm (a := Fault.latched k)]
  · simp [hs, hl, hk, ht, eq_comm (a := Refusal.tickRegression)]
  · simp [hs, hl, hk, ht]

/-! ## The step that runs an instruction, and the step that faults at the fetch -/

/-- Settles O14: phase 3 of the step is `exec` in the entered state. -/
theorem stepRunsTheDecodedInstruction : Obligations.StepRunsTheDecodedInstruction := by
  unfold Obligations.StepRunsTheDecodedInstruction
  intro s i ha hf
  cases hx : exec i s.entered <;> rw [step_of_accepts ha, State.runStep, phase3_of_fetches hf, hx]

/-- A taken fault stops the engine: the next step is answered by the guard (R305). -/
theorem step_takeFault {s : State} (hl : s.loaded = true) (f : Fault) :
    step (s.takeFault f) = .fault (.latched f.kind) :=
  stepWith_of_latched (s := (s.takeFault f).popCall) hl rfl _

theorem step_of_fetch_error {s : State} {f : Fault} (ha : Accepts s) (hw : s.wait = none) (hf : s.fetch = .error f) :
    step s = .next (s.popCall.takeFault f) := by
  have hwait : (s.popCall.latchKeys s.nextArgs.keys).wait = none := hw
  have hfetch : (s.popCall.latchKeys s.nextArgs.keys).fetch = .error f := hf
  rw [step_of_accepts ha, State.runStep, State.phase3, hwait, State.runInstr, hfetch]

/-- Settles O15: the fetch of an odd pc is the fault. -/
theorem oddPcFaultsAtTheFetch : Obligations.OddPcFaultsAtTheFetch := by
  unfold Obligations.OddPcFaultsAtTheFetch
  exact fun s ha hw hodd => step_of_fetch_error ha hw (fetch_eq_error.2 (.inl ⟨rfl, hodd⟩))

/-- Settles O16: the fetch of an illegal word is the fault, and a step from the state that it leaves is answered by the
guard. -/
theorem illegalWordFaultsAndStops : Obligations.IllegalWordFaultsAndStops := by
  unfold Obligations.IllegalWordFaultsAndStops
  intro s e ha hw heven he
  refine ⟨_, step_of_fetch_error ha hw (fetch_eq_error.2 (.inr ⟨rfl, heven, e, he⟩)), rfl, ?_⟩
  obtain ⟨hl, -, -⟩ := ha
  exact step_takeFault (s := s.popCall) hl (.illegalInstruction s.pc s.fetchWord)

/-! ## A step with a fault, and a step without -/

/-- A step without a fault has finished an instruction or a wait phase. -/
theorem step_finished {s t : State} (h : step s = .next t) (hfault : t.fault = none) :
    (∃ i u, Fetches s i ∧ exec i s.entered = .next u ∧ t = u.finish (s.tickOf s.nextArgs)) ∨
    (∃ r, s.wait = some r ∧
      t = ((s.popCall.latchKeys s.nextArgs.keys).waitPhase r).finish (s.tickOf s.nextArgs)) := by
  rcases step_next_spec h with hi | hw | ⟨f, -, rfl⟩
  · exact .inl hi
  · exact .inr hw
  · rw [State.takeFault_fault] at hfault
    cases hfault

theorem waitPhase_fault (s : State) (r : Reg) : (s.waitPhase r).fault = s.fault := by
  obtain ⟨-, -, -, -, -, -, -, -, -, hfault, -⟩ := waitPhase_unwritten s r
  exact hfault

/-- A step that ends with the latch set has taken that fault: the guard let it through with none, and neither an
instruction nor the wait phase writes the latch. -/
theorem step_faulted {s t : State} {k : FaultKind} (h : step s = .next t) (hk : t.fault = some k) :
    ∃ f, FaultsWith s f ∧ f.kind = k ∧ t = s.popCall.takeFault f := by
  obtain ⟨-, hnone, -⟩ := accepts_of_step_next h
  rcases step_next_spec h with ⟨i, u, -, hx, rfl⟩ | ⟨r, -, rfl⟩ | ⟨f, hf, rfl⟩
  · obtain ⟨-, -, -, hfault, -⟩ := exec_unwritten hx
    cases hk.symm.trans (hfault.trans hnone)
  · cases hk.symm.trans ((waitPhase_fault _ r).trans hnone)
  · exact ⟨f, hf, Option.some.inj hk, rfl⟩

/-- Settles O17: the fault taken is one of the four, and pc below 4096 makes the recorded address the pc. -/
theorem faultingStepCommitsNothing : Obligations.FaultingStepCommitsNothing := by
  unfold Obligations.FaultingStepCommitsNothing
  intro s t k ⟨_, hpc, _⟩ h hk
  obtain ⟨f, ⟨hw, hwhy⟩, rfl, rfl⟩ := step_faulted h hk
  rw [entered_instrAddr hpc] at hwhy
  exact ⟨hw, f, rfl, rfl, hwhy⟩

/-! ## The inputs (R40, R43, R320) -/

/-- Settles O20: neither an instruction nor the wait phase writes what the sequencer latched before it, and the end of
the step records the tick. -/
theorem stepLatchesItsArguments : Obligations.StepLatchesItsArguments := by
  unfold Obligations.StepLatchesItsArguments
  intro s t h hfault
  obtain ⟨hl, -, ht⟩ := accepts_of_step_next h
  have htick := (tickRegresses_eq_false_iff s _).1 ht
  rcases step_finished h hfault with ⟨i, u, -, hx, rfl⟩ | ⟨r, -, rfl⟩
  · obtain ⟨hkeys, hprev, -, -, hloaded, -, hcalls, hcfg⟩ := exec_unwritten hx
    exact ⟨hkeys, hprev, rfl, htick, hcalls, hcfg, hloaded.trans hl⟩
  · obtain ⟨-, -, -, -, -, -, hkeys, hprev, -, -, hloaded, hcalls, hcfg⟩ :=
      waitPhase_unwritten (s.popCall.latchKeys s.nextArgs.keys) r
    exact ⟨hkeys, hprev, rfl, htick, hcalls, hcfg, hloaded.trans hl⟩

/-! ## The timers (R320, R321) -/

theorem exec_DT_of_ne_ldDtVx {i : Instr} {s u : State} (hx : exec i s = .next u) (hi : ∀ x, i ≠ .ldDtVx x) :
    u.DT = s.DT :=
  (exec_timers hx).1.resolve_right fun ⟨x, hix, _⟩ => hi x hix

theorem waitPhase_DT (s : State) (r : Reg) : (s.waitPhase r).DT = s.DT := by
  obtain ⟨-, -, -, -, hDT, -⟩ := waitPhase_unwritten s r
  exact hDT

/-- The decay after a wait phase counts the ticks since the previous step. -/
theorem tickDelta_waitPhase (s : State) (r : Reg) (n : Nat) : (s.waitPhase r).tickDelta n = s.tickDelta n := by
  obtain ⟨-, -, -, -, -, -, -, -, hlast, -⟩ := waitPhase_unwritten s r
  rw [State.tickDelta, State.tickDelta, hlast]

/-- Settles O21: the decay at the end of the step starts from the timer before it, which no other instruction and no
wait phase writes. -/
theorem timersFallByTheElapsedTicks : Obligations.TimersFallByTheElapsedTicks := by
  unfold Obligations.TimersFallByTheElapsedTicks
  intro s t h hfault
  rcases step_finished h hfault with ⟨i, u, hi, hx, rfl⟩ | ⟨r, -, rfl⟩
  · rw [finish_DT_toNat_of_exec_next hx, finish_ST_toNat_of_exec_next hx]
    refine ⟨fun hne => ?_, fun hne => ?_⟩
    · rw [exec_DT_of_ne_ldDtVx hx fun x hix => hne x (hix ▸ hi)]; rfl
    · rw [exec_ST_of_ne_ldStVx hx fun x hix => hne x (hix ▸ hi)]; rfl
  · rw [State.finish_DT, State.finish_ST, decayed_toNat, decayed_toNat, tickDelta_waitPhase, waitPhase_DT, waitPhase_ST]
    exact ⟨fun _ => rfl, fun _ => rfl⟩

/-! ## Who moves the call stack, and who writes memory (R38, R77) -/

theorem waitPhase_mem (s : State) (r : Reg) : (s.waitPhase r).mem = s.mem := by
  obtain ⟨hmem, -⟩ := waitPhase_unwritten s r
  exact hmem

theorem step_stack {s t : State} (h : step s = .next t) :
    (t.stack = s.stack ∧ t.sp = s.sp) ∨ Fetches s .ret ∨ ∃ nnn, Fetches s (.call nnn) := by
  rcases step_next_spec h with ⟨i, u, hi, hx, rfl⟩ | ⟨r, -, rfl⟩ | ⟨f, -, rfl⟩
  · rcases exec_stack hx with hsame | rfl | ⟨nnn, rfl⟩
    · exact .inl hsame
    · exact .inr (.inl hi)
    · exact .inr (.inr ⟨nnn, hi⟩)
  · obtain ⟨-, -, hstack, hsp, -⟩ := waitPhase_unwritten (s.popCall.latchKeys s.nextArgs.keys) r
    exact .inl ⟨hstack, hsp⟩
  · exact .inl ⟨rfl, rfl⟩

theorem step_mem {s t : State} (h : step s = .next t) :
    t.mem = s.mem ∨ ∃ x, Fetches s (.ldMemVx x) ∨ Fetches s (.ldBVx x) := by
  rcases step_next_spec h with ⟨i, u, hi, hx, rfl⟩ | ⟨r, -, rfl⟩ | ⟨f, -, rfl⟩
  · rcases exec_mem hx with hmem | ⟨⟨x, rfl | rfl⟩, -⟩
    · exact .inl hmem
    · exact .inr ⟨x, .inl hi⟩
    · exact .inr ⟨x, .inr hi⟩
  · exact .inl (waitPhase_mem _ r)
  · exact .inl rfl

/-- Settles O27: no other instruction, no wait phase and no taken fault moves the stack. -/
theorem stackIsMovedOnlyByCallAndRet : Obligations.StackIsMovedOnlyByCallAndRet := by
  unfold Obligations.StackIsMovedOnlyByCallAndRet
  intro s t h hne
  exact (step_stack h).resolve_left fun ⟨hstack, hsp⟩ => hne.elim (absurd hstack) (absurd hsp)

/-- Settles O28: no other instruction, no wait phase and no taken fault writes memory. -/
theorem memoryIsWrittenOnlyByStores : Obligations.MemoryIsWrittenOnlyByStores := by
  unfold Obligations.MemoryIsWrittenOnlyByStores
  exact fun s t h hne => (step_mem h).resolve_left hne

end Sys2Proof.Machine
end

section
/-!
PROOFS. The invariants (spec/10_state.md R34, R50, spec/43_input_wait.md R265): every step keeps the ranges of the state,
and every step keeps pc at the FX0A that the engine waits for.
-/

namespace Sys2Proof.Machine

/-! ## The ranges of the state (R50) -/

/-- `Inv` speaks of memory, pc, the recorded tick and the parameters alone. -/
theorem Inv.congr {s t : State} (h : Inv s) (hmem : t.mem = s.mem) (hpc : t.pc = s.pc)
    (hlast : t.lastTick = s.lastTick) (hcfg : t.cfg = s.cfg) : Inv t := by
  unfold Inv
  rw [hmem, hpc, hlast, hcfg]
  exact h

/-- The end of a step records a tick of TICK_W bits, so the other two ranges are what is left to show. -/
theorem inv_finish {s u : State} (hcfg : u.cfg = s.cfg) (hmem : Memory.wf u.mem = true) (hpc : u.pc.toNat < 4096) :
    Inv (u.finish (s.tickOf s.nextArgs)) := by
  refine ⟨hmem, hpc, fun n hn => ?_⟩
  rw [State.finish_lastTick] at hn
  obtain rfl := Option.some.inj hn
  rw [State.finish_cfg, hcfg]
  exact tickOf_lt s _

theorem exec_mem_wf {i : Instr} {s u : State} (hx : exec i s = .next u) (h : Memory.wf s.mem = true) :
    Memory.wf u.mem = true := by
  rcases exec_mem hx with hmem | ⟨-, hwf⟩
  · rw [hmem]; exact h
  · exact hwf h

theorem entered_pc_toNat (s : State) : s.entered.pc.toNat = (s.pc.toNat + 2) % 4096 := by
  rw [State.entered, BitVec.toNat_ofNat]
  omega

theorem entered_pc_lt (s : State) : s.entered.pc.toNat < 4096 := by
  rw [entered_pc_toNat]
  exact Nat.mod_lt _ (by decide)

theorem waitPhase_pc_lt {s : State} (h : s.pc.toNat < 4096) (r : Reg) : (s.waitPhase r).pc.toNat < 4096 := by
  rcases waitPhase_cases s r with ⟨k, -, hk⟩ | ⟨-, hsame⟩
  · rw [hk]; exact maskPc_lt _
  · rw [hsame]; exact h

theorem step_keeps_inv {s t : State} (hs : Inv s) (h : step s = .next t) : Inv t := by
  have ⟨hmem, hpc, _⟩ := hs
  rcases step_next_spec h with ⟨i, u, -, hx, rfl⟩ | ⟨r, -, rfl⟩ | ⟨f, -, rfl⟩
  · obtain ⟨-, -, -, -, -, -, -, hcfg⟩ := exec_unwritten hx
    exact inv_finish hcfg (exec_mem_wf hx hmem) (exec_pc_lt hx (entered_pc_lt s))
  · obtain ⟨hsame, -, -, -, -, -, -, -, -, -, -, -, hcfg⟩ :=
      waitPhase_unwritten (s.popCall.latchKeys s.nextArgs.keys) r
    exact inv_finish hcfg (hsame ▸ hmem) (waitPhase_pc_lt (s := s.popCall.latchKeys _) hpc r)
  · exact hs.congr rfl rfl rfl rfl

/-- Settles O5: an instruction and the wait phase keep memory canonical and pc below 4096, the end of the step records a
tick in range, and a taken fault keeps all three. -/
theorem stepKeepsTheInvariant : Obligations.StepKeepsTheInvariant := by
  unfold Obligations.StepKeepsTheInvariant
  exact fun s t => step_keeps_inv

/-! ## The waiting FX0A (R265) -/

/-- The fetched word depends on memory and on pc mod 4096. -/
theorem fetchWord_congr {s t : State} (hmem : t.mem = s.mem) (hpc : t.pc.toNat % 4096 = s.pc.toNat % 4096) :
    t.fetchWord = s.fetchWord := by
  have hpc1 : (t.pc.toNat + 1) % 4096 = (s.pc.toNat + 1) % 4096 := by omega
  rw [State.fetchWord, State.load8, State.load8, hmem, hpc, hpc1]
  rfl

/-- The property depends on the wait state, memory and pc. -/
theorem WaitsAtFx0a.congr {s t : State} (h : WaitsAtFx0a s) (hwait : t.wait = s.wait) (hmem : t.mem = s.mem)
    (hpc : t.pc = s.pc) : WaitsAtFx0a t := by
  intro r hr
  rw [fetchWord_congr hmem (by rw [hpc]), hpc]
  exact h r (hwait ▸ hr)

theorem waitsAtFx0a_of_no_wait {s : State} (h : s.wait = none) : WaitsAtFx0a s := by
  intro r hr
  rw [h] at hr
  cases hr

/-- A word that is read as FX0A with register x is the word of that instruction. -/
theorem eq_formatXNN_of_decode_ldVxK {w : Word} {x : Reg} (h : decode w = .ok (.ldVxK x)) :
    w = formatXNN 0xF x 0x0A := by
  obtain ⟨hf, -⟩ := (fits_maskX_iff (by decide) w).1 (fits_of_decode h)
  have hfam : famOf w = 0xF#4 := hf
  obtain ⟨-, hw⟩ := encode_of_decode h (by rw [hfam]; decide) (by rw [hfam]; decide)
  exact hw.symm

/-- An instruction that begins a wait is FX0A, and it leaves pc at its own address, where its word stands. -/
theorem exec_keeps_waitsAtFx0a {s u : State} {i : Instr} (hf : Fetches s i) (hx : exec i s.entered = .next u) :
    WaitsAtFx0a u := by
  obtain ⟨hw, heven, hdecode⟩ := hf
  rcases exec_wait hx with hsame | ⟨x, rfl, hwait, hpc, hmem⟩
  · exact waitsAtFx0a_of_no_wait (hsame.trans hw)
  · intro r hr
    obtain rfl : x = r := Option.some.inj (hwait.symm.trans hr)
    have haddr : u.pc.toNat = s.pc.toNat % 4096 := by
      rw [hpc, instrAddr_toNat, entered_pc_toNat]
      omega
    have hword : u.fetchWord = s.fetchWord := fetchWord_congr hmem (by rw [haddr, Nat.mod_mod])
    exact ⟨by omega, hword.trans (eq_formatXNN_of_decode_ldVxK hdecode)⟩

/-- The wait phase ends the wait or leaves all as it was. -/
theorem waitPhase_keeps_waitsAtFx0a {s : State} (h : WaitsAtFx0a s) (r : Reg) : WaitsAtFx0a (s.waitPhase r) := by
  rcases waitPhase_cases s r with ⟨k, -, hk⟩ | ⟨-, hsame⟩
  · rw [hk]; exact waitsAtFx0a_of_no_wait rfl
  · rw [hsame]; exact h

/-- Settles O7: an FX0A that begins a wait stands at the pc it leaves, a wait phase that does not end moves nothing, and a
fault is taken in no wait. -/
theorem stepKeepsPcAtTheWaitingFx0a : Obligations.StepKeepsPcAtTheWaitingFx0a := by
  unfold Obligations.StepKeepsPcAtTheWaitingFx0a
  intro s t hs h
  rcases step_next_spec h with ⟨i, u, hi, hx, rfl⟩ | ⟨r, -, rfl⟩ | ⟨f, ⟨hw, -⟩, rfl⟩
  · exact (exec_keeps_waitsAtFx0a hi hx).congr rfl rfl rfl
  · have hlatched : WaitsAtFx0a (s.popCall.latchKeys s.nextArgs.keys) := hs.congr rfl rfl rfl
    exact (waitPhase_keeps_waitsAtFx0a hlatched r).congr rfl rfl rfl
  · exact waitsAtFx0a_of_no_wait hw

/-- Settles O4: at reset memory lists nothing, no tick is recorded and there is no wait. -/
theorem resetMeetsTheInvariants : Obligations.ResetMeetsTheInvariants := by
  unfold Obligations.ResetMeetsTheInvariants
  exact ⟨⟨Memory.wf_nil, by decide, fun _ h => nomatch h⟩, waitsAtFx0a_of_no_wait rfl⟩

end Sys2Proof.Machine
end

section
/-!
PROOFS. The block's transactions (spec/10_state.md R45, R49, spec/60_exceptions.md R300, R305, R330 to R338,
spec/70_reset_and_hazards.md R360, R361): what a load leaves, who writes `loaded`, what a step answers the host, and that
every transaction keeps the ranges of R50.
-/

namespace Sys2Proof.Machine

/-! ## A load -/

theorem perform_load_of_le {p : List Byte} (s : State) (h : p.length ≤ 3584) :
    perform (.load p) s = (.done, s.loadOk p) :=
  performLoad_of_le s h

theorem perform_load_of_gt {p : List Byte} (s : State) (h : 3584 < p.length) :
    perform (.load p) s = (.programTooLarge p.length, s.loadFailed) :=
  performLoad_of_gt s h

theorem wf_fontMemory (cfg : Config) :
    Memory.wf (Memory.writeBytes (Memory.writeCells [] cfg.residue) 0 cfg.font.toList) = true :=
  Memory.wf_writeBytes (Memory.wf_writeCells Memory.wf_nil _) _ _

theorem wf_loadedMemory (cfg : Config) (p : List Byte) : Memory.wf (loadedMemory cfg p) = true :=
  Memory.wf_writeBytes (wf_fontMemory cfg) _ _

/-- Below the program and above it the bytes are those from before it was written. -/
theorem read_loadedMemory_outside (cfg : Config) {p : List Byte} (hp : p.length ≤ 3584) {a : Nat} (ha : a < 4096)
    (hout : a < 0x200 ∨ 0x200 + p.length ≤ a) :
    Memory.read (loadedMemory cfg p) a =
      Memory.read (Memory.writeBytes (Memory.writeCells [] cfg.residue) 0 cfg.font.toList) a :=
  Memory.read_writeBytes_other (wf_fontMemory cfg) fun k hk => by omega

theorem load8_loadOk_font (s : State) {p : List Byte} (hp : p.length ≤ 3584) (k : Nat) (hk : k < 80) :
    (s.loadOk p).load8 k = s.cfg.font[k] := by
  have hat := Memory.read_writeBytes_at (Memory.wf_writeCells Memory.wf_nil s.cfg.residue) (a := 0)
    (bs := s.cfg.font.toList) (by simp) (k := k) (by simpa using hk)
  rw [Nat.zero_add, Nat.mod_eq_of_lt (by omega)] at hat
  have hout := read_loadedMemory_outside s.cfg hp (a := k) (by omega) (.inl (by omega))
  rw [State.load8, Nat.mod_eq_of_lt (by omega)]
  exact hout.trans (hat.trans (by simp))

theorem load8_loadOk_program (s : State) {p : List Byte} (hp : p.length ≤ 3584) (k : Nat) (hk : k < p.length) :
    (s.loadOk p).load8 (0x200 + k) = p[k] :=
  Memory.read_writeBytes_at (wf_fontMemory s.cfg) (by omega) hk

theorem load8_loadOk_residue (s : State) {p : List Byte} (hp : p.length ≤ 3584) (a : Nat) (hfont : 80 ≤ a)
    (ha : a < 4096) (hout : a < 0x200 ∨ 0x200 + p.length ≤ a) : (s.loadOk p).load8 a = residueByte s.cfg a := by
  rw [State.load8, Nat.mod_eq_of_lt ha]
  refine (read_loadedMemory_outside s.cfg hp ha hout).trans
    (Memory.read_writeBytes_other (Memory.wf_writeCells Memory.wf_nil _) fun k hk => ?_)
  rw [Vector.length_toList] at hk
  omega

theorem loadOk_reg (s : State) (p : List Byte) (r : Reg) : (s.loadOk p).reg r = 0 :=
  Vector.getElem_replicate _

/-- Settles O2: residue, font and program are written in this order, and the program, which fits, meets no byte of the
font. -/
theorem loadInstallsFontAndProgram : Obligations.LoadInstallsFontAndProgram := by
  unfold Obligations.LoadInstallsFontAndProgram
  intro p s hp
  exact ⟨s.loadOk p, perform_load_of_le s hp, load8_loadOk_font s hp, load8_loadOk_program s hp,
    load8_loadOk_residue s hp, rfl, rfl, rfl, rfl, loadOk_reg s p, rfl, rfl, rfl, rfl, rfl, rfl, rfl⟩

/-- At reset memory holds the standard font, which is what an unlisted address reads as. -/
theorem loadedMemory_standard_nil : loadedMemory Config.standard [] = [] := by decide

theorem loadOk_reset_nil : State.reset.loadOk [] = State.reset := by
  simp only [State.loadOk, State.reset, loadedMemory_standard_nil]

/-- Settles O1: what any load leaves (O2), for the empty program, is the reset state. -/
theorem resetIsTheLoadedState : Obligations.ResetIsTheLoadedState := by
  unfold Obligations.ResetIsTheLoadedState
  have hload := perform_load_of_le (p := []) State.reset (by decide)
  have hfont := load8_loadOk_font State.reset (p := []) (by decide)
  have hreg := loadOk_reg State.reset []
  rw [loadOk_reset_nil] at hload hfont hreg
  exact ⟨hload, rfl, rfl, rfl, rfl, hreg, rfl, rfl, rfl, rfl, rfl, rfl, hfont⟩

/-! ## A step as a transaction -/

theorem perform_step_of_unloaded {s : State} (hl : s.loaded = false) (a : StepArgs) :
    perform (.step a) s = (.refused .unloaded, s) := by
  rw [perform, performStep, stepWith_of_unloaded hl]

theorem perform_step_of_latched {s : State} {k : FaultKind} (hl : s.loaded = true) (hk : s.fault = some k)
    (a : StepArgs) : perform (.step a) s = (.step (.err (.latched k)), s) := by
  rw [perform, performStep, stepWith_of_latched hl hk]

/-- What a step answers the host: the result of a step that goes on, the latched fault, or a refusal; the last two
change nothing (R305, R338). -/
theorem perform_step_cases (a : StepArgs) (s : State) :
    (∃ t r, step { s with calls := a :: s.calls } = .next t ∧ t.reply = some r ∧
      perform (.step a) s = (.step r, t)) ∨
    (∃ k, s.fault = some k ∧ perform (.step a) s = (.step (.err (.latched k)), s)) ∨
    (∃ r, perform (.step a) s = (.refused r, s)) := by
  have hperform (o) (h : step { s with calls := a :: s.calls } = o) : stepWith a s = o := h
  rcases step_cases { s with calls := a :: s.calls } with ⟨-, hs⟩ | ⟨-, k, hk, hs⟩ | ⟨-, -, -, hs⟩ | ⟨-, t, hs⟩
  · exact .inr (.inr ⟨_, by rw [perform, performStep, hperform _ hs]⟩)
  · exact .inr (.inl ⟨k, hk, by rw [perform, performStep, hperform _ hs]⟩)
  · exact .inr (.inr ⟨_, by rw [perform, performStep, hperform _ hs]⟩)
  · obtain ⟨r, hr⟩ : ∃ r, t.reply = some r := by
      rcases step_next_reply hs with ⟨-, b, hb⟩ | ⟨f, -, hf⟩
      · exact ⟨_, hb⟩
      · exact ⟨_, hf⟩
    exact .inl ⟨t, r, hs, hr, by simp only [perform, performStep, hperform _ hs, hr]⟩

/-- Settles O3: the load fails into a state that is not loaded, where the guard refuses every step. -/
theorem loadOfTooLongProgramFails : Obligations.LoadOfTooLongProgramFails := by
  unfold Obligations.LoadOfTooLongProgramFails
  exact fun p s hp => ⟨s.loadFailed, perform_load_of_gt s hp, State.loadFailed_loaded s,
    perform_step_of_unloaded (State.loadFailed_loaded s)⟩

/-- Settles O18: the guard answers the latch, and a load that fits leaves none. -/
theorem faultLatchHoldsUntilLoad : Obligations.FaultLatchHoldsUntilLoad := by
  unfold Obligations.FaultLatchHoldsUntilLoad
  exact fun s k hl hk => ⟨perform_step_of_latched hl hk, fun p hp =>
    ⟨s.loadOk p, perform_load_of_le s hp, State.loadOk_fault s p⟩⟩

/-! ## pc and index accessors -/

/-- Settles O58: the reads answer the register, the writes are the operations of R34 and R37. -/
theorem pcAndIndexAccessors : Obligations.PcAndIndexAccessors := by
  unfold Obligations.PcAndIndexAccessors
  exact fun s v => ⟨rfl, rfl, ⟨s.setPc v, rfl, maskPc_toNat v, setPc_pcOnly s v⟩,
    ⟨s.setIndex v, rfl, State.setIndex_I s v, setIndex_indexOnly s v⟩⟩

/-! ## Who writes `loaded` (R45) -/

theorem perform_load_loaded_iff (p : List Byte) (s : State) :
    (perform (.load p) s).2.loaded = true ↔ p.length ≤ 3584 := by
  by_cases h : p.length ≤ 3584
  · simp [perform_load_of_le s h, h]
  · simp [perform_load_of_gt s (Nat.lt_of_not_le h), h]

theorem step_loaded {s t : State} (h : step s = .next t) : t.loaded = s.loaded := by
  rcases step_next_spec h with ⟨i, u, -, hx, rfl⟩ | ⟨r, -, rfl⟩ | ⟨f, -, rfl⟩
  · obtain ⟨-, -, -, -, hloaded, -⟩ := exec_unwritten hx
    exact hloaded
  · obtain ⟨-, -, -, -, -, -, -, -, -, -, hloaded, -⟩ := waitPhase_unwritten (s.popCall.latchKeys s.nextArgs.keys) r
    exact hloaded
  · rfl

theorem perform_loaded {op : HostOp} (s : State) (hop : ∀ p, op ≠ .load p) : (perform op s).2.loaded = s.loaded := by
  cases op with
  | load p => exact absurd rfl (hop p)
  | step a =>
    rcases perform_step_cases a s with ⟨t, r, hs, -, ht⟩ | ⟨k, -, hk⟩ | ⟨r, hr⟩
    · have hloaded := step_loaded hs
      rw [ht]; exact hloaded
    · rw [hk]
    · rw [hr]
  | setReg i v => simp only [perform, State.debugSetReg]; split <;> rfl
  | setMem a v => simp only [perform, State.debugSetMem]; split <;> rfl
  | setPc | setIndex | getPc | getIndex | getReg | getMem | readFb => rfl

/-- Settles O59: a load alone writes `loaded`, and the guard reads it first. -/
theorem loadedSaysWhetherStepsRun : Obligations.LoadedSaysWhetherStepsRun := by
  unfold Obligations.LoadedSaysWhetherStepsRun
  exact ⟨fun cfg calls => ⟨State.notLoaded_loaded cfg calls 0, State.inv_notLoaded cfg calls 0⟩,
    perform_load_loaded_iff, fun op s => perform_loaded s,
    fun s hl => ⟨stepWith_of_unloaded (s := s.popCall) hl _, perform_step_of_unloaded hl⟩⟩

/-! ## The fault codes (R300) -/

theorem faultKind_code_range (k : FaultKind) : 1 ≤ k.code ∧ k.code ≤ 4 := by
  cases k <;> decide

theorem faultCode_of_fault {s : State} {k : FaultKind} (h : s.fault = some k) : s.faultCode = k.code := by
  rw [State.faultCode, h]

theorem faultCode_table (s : State) :
    (s.faultCode = 0 ↔ s.fault = none) ∧ (s.faultCode = 1 ↔ s.fault = some .illegalInstruction) ∧
    (s.faultCode = 2 ↔ s.fault = some .stackOverflow) ∧ (s.faultCode = 3 ↔ s.fault = some .stackUnderflow) ∧
    (s.faultCode = 4 ↔ s.fault = some .misalignedFetch) := by
  cases h : s.fault with
  | none => simp [State.faultCode, h]
  | some k => cases k <;> simp [State.faultCode, h, FaultKind.code]

theorem perform_load_code (p : List Byte) (s : State) :
    (perform (.load p) s).1.code = if 3584 < p.length then 5 else 0 := by
  by_cases h : p.length ≤ 3584
  · rw [perform_load_of_le s h, if_neg (by omega)]; rfl
  · rw [perform_load_of_gt s (by omega), if_pos (by omega)]; rfl

/-- An error that a step answers is of the kind that its state has latched. -/
theorem fault_of_perform_step_err {a : StepArgs} {s t : State} {f : Fault}
    (h : perform (.step a) s = (.step (.err f), t)) : t.fault = some f.kind := by
  rcases perform_step_cases a s with ⟨u, r, hs, hr, hu⟩ | ⟨k, hfault, hk⟩ | ⟨r, hr⟩
  · cases hu.symm.trans h
    rcases step_next_reply hs with ⟨-, b, hb⟩ | ⟨g, hg, hreply⟩
    · cases hr.symm.trans hb
    · cases hr.symm.trans hreply
      exact hg
  · cases hk.symm.trans h
    exact hfault
  · cases hr.symm.trans h

/-- Settles O60: the latch by its kinds, a load by its length, a step by the kind that it leaves latched. -/
theorem faultCodesFollowTheTable : Obligations.FaultCodesFollowTheTable := by
  unfold Obligations.FaultCodesFollowTheTable
  refine ⟨faultCode_table, perform_load_code, fun a s t f h => ?_⟩
  rw [faultCode_of_fault (fault_of_perform_step_err h)]
  exact ⟨rfl, faultKind_code_range f.kind⟩

/-! ## The ranges of R50 -/

theorem inv_loadOk (s : State) (p : List Byte) : Inv (s.loadOk p) :=
  ⟨wf_loadedMemory s.cfg p, show (0x200#16).toNat < 4096 by decide, fun _ h => nomatch h⟩

theorem inv_perform_load (p : List Byte) (s : State) : Inv (perform (.load p) s).2 := by
  by_cases h : p.length ≤ 3584
  · rw [perform_load_of_le s h]; exact inv_loadOk s p
  · rw [perform_load_of_gt s (by omega)]; exact State.inv_notLoaded _ _ _

theorem inv_perform_step {s : State} (hs : Inv s) (a : StepArgs) : Inv (perform (.step a) s).2 := by
  rcases perform_step_cases a s with ⟨t, r, h, -, ht⟩ | ⟨k, -, hk⟩ | ⟨r, hr⟩
  · have hcall : Inv { s with calls := a :: s.calls } := hs.congr rfl rfl rfl rfl
    rw [ht]; exact step_keeps_inv hcall h
  · rw [hk]; exact hs
  · rw [hr]; exact hs

theorem inv_debugSetReg {s : State} (hs : Inv s) (i : Int) (v : Byte) : Inv (s.debugSetReg i v) := by
  unfold State.debugSetReg
  split
  · exact hs.congr rfl rfl rfl rfl
  · exact hs

/-- The accessor's range check keeps its address below 4096 (R335). -/
theorem inv_debugSetMem {s : State} (hs : Inv s) (a : Int) (v : Byte) : Inv (s.debugSetMem a v) := by
  unfold State.debugSetMem
  split
  · obtain ⟨hmem, hpc, hlast⟩ := hs
    exact ⟨Memory.wf_write hmem v (by omega), hpc, hlast⟩
  · exact hs

theorem inv_debugSetPc {s : State} (hs : Inv s) (v : Word) : Inv (s.debugSetPc v) := by
  obtain ⟨hmem, -, hlast⟩ := hs
  exact ⟨hmem, maskPc_lt v, hlast⟩

/-- Settles O6: by the operation; a load rests on nothing in the state before it. -/
theorem everyTransactionKeepsTheInvariant : Obligations.EveryTransactionKeepsTheInvariant := by
  unfold Obligations.EveryTransactionKeepsTheInvariant
  intro op s hs
  cases op with
  | load p => exact inv_perform_load p s
  | step a => exact inv_perform_step hs a
  | setPc v => exact inv_debugSetPc hs v
  | setIndex v => exact hs.congr rfl rfl rfl rfl
  | setReg i v => exact inv_debugSetReg hs i v
  | setMem a v => exact inv_debugSetMem hs a v
  | getPc | getIndex | getReg | getMem | readFb => exact hs

end Sys2Proof.Machine
end

section
/-!
PROOFS. Calls, returns, indexed jumps and skips (spec/40_control_flow.md R144, R150, R151, R153, R155 to R158,
spec/43_input_wait.md R260, R261): CALL and RET by the room on the stack, the others as a write of pc alone.
-/

namespace Sys2Proof.Machine

/-! ## CALL and RET -/

/-- The state after a CALL that has room: the return address pushed, pc at the target (R150). -/
def State.called (s : State) (nnn : Addr) (h : s.sp.val < 16) : State :=
  { s with stack := s.stack.set s.sp.val (s.pc.setWidth 12) h, sp := ⟨s.sp.val + 1, by omega⟩,
           pc := maskPc (addrWord nnn) }

theorem exec_call_of_lt {s : State} (h : s.sp.val < 16) (nnn : Addr) :
    exec (.call nnn) s = .next (s.called nnn h) := by
  rw [exec, execCall, push_of_lt s _ h]
  rfl

theorem exec_call_of_full {s : State} (h : s.sp.val = 16) (nnn : Addr) :
    exec (.call nnn) s = .fault (.stackOverflow s.instrAddr) := by
  rw [exec, execCall, push_of_full s _ h]

/-- A CALL that goes on had room. -/
theorem eq_called_of_exec_call {nnn : Addr} {s t : State} (h : exec (.call nnn) s = .next t) :
    ∃ hlt, t = s.called nnn hlt := by
  obtain ⟨hlt, -⟩ := execCall_next h
  exact ⟨hlt, Host.Outcome.next.inj (h.symm.trans (exec_call_of_lt hlt nnn))⟩

/-- The state after a RET whose top entry is `a`; the slots stay (R151). -/
def State.returned (s : State) (a : Addr) : State :=
  { s with sp := ⟨s.sp.val - 1, by omega⟩, pc := maskPc (addrWord a) }

theorem exec_ret_of_top {s : State} {a : Addr} (hpos : 0 < s.sp.val) (ha : s.stack[s.sp.val - 1]? = some a) :
    exec .ret s = .next (s.returned a) := by
  obtain ⟨_, rfl⟩ := Vector.getElem?_eq_some_iff.1 ha
  rw [exec, execRet, pop_of_pos s hpos]
  rfl

theorem exec_ret_of_empty {s : State} (h : s.sp.val = 0) : exec .ret s = .fault (.stackUnderflow s.instrAddr) := by
  rw [exec, execRet, pop_of_empty s h]

theorem instrAddr_eq_ofNat (s : State) : s.instrAddr = BitVec.ofNat 16 ((s.pc.toNat + 65534) % 4096) := by
  rw [← instrAddr_toNat, BitVec.ofNat_toNat, BitVec.setWidth_eq]

/-- Settles O30: by the room on the stack. -/
theorem callPushesTheReturnAddress : Obligations.CallPushesTheReturnAddress := by
  unfold Obligations.CallPushesTheReturnAddress
  refine fun nnn s => ⟨fun hlt => ⟨s.called nnn hlt, exec_call_of_lt hlt nnn, rfl, ?_, fun j hj => ?_,
    setPc_addrWord_pc_toNat s nnn, rfl⟩, fun hfull => ?_⟩
  · exact Vector.getElem?_set_self hlt
  · exact Vector.getElem?_set_ne hlt hj.symm
  · rw [exec_call_of_full hfull, instrAddr_eq_ofNat]

/-- Settles O31: by whether the stack is empty. -/
theorem retPopsTheTopEntry : Obligations.RetPopsTheTopEntry := by
  unfold Obligations.RetPopsTheTopEntry
  refine fun s => ⟨fun a hpos ha => ⟨s.returned a, exec_ret_of_top hpos ha, ?_, setPc_addrWord_pc_toNat s a, rfl⟩,
    fun hempty => ?_⟩
  · exact Nat.sub_add_cancel hpos
  · rw [exec_ret_of_empty hempty, instrAddr_eq_ofNat]

/-- Settles O32: the top entry is the one the CALL pushed, the low 12 bits of its pc. -/
theorem retResumesAfterTheCall : Obligations.RetResumesAfterTheCall := by
  unfold Obligations.RetResumesAfterTheCall
  intro nnn s t u hcall hstack hsp
  obtain ⟨hlt, rfl⟩ := eq_called_of_exec_call hcall
  have hval : u.sp.val = s.sp.val + 1 := congrArg Fin.val hsp
  have htop : u.stack[u.sp.val - 1]? = some (s.pc.setWidth 12) := by
    rw [hval, Nat.add_sub_cancel, hstack]
    exact Vector.getElem?_set_self hlt
  refine ⟨u.returned (s.pc.setWidth 12), exec_ret_of_top (by omega) htop, ?_, Fin.ext ?_⟩
  · exact (setPc_addrWord_pc_toNat u _).trans (BitVec.toNat_setWidth ..)
  · exact (congrArg (· - 1) hval).trans (Nat.add_sub_cancel ..)

/-! ## JP V0 -/

theorem exec_jpV0_eq_setPc (x : Reg) (nnn : Addr) (s : State) :
    exec (.jpV0 x nnn) s = .next (s.setPc (addrWord nnn + byteWord (s.jumpOffset x))) := rfl

@[simp] theorem byteWord_toNat (v : Byte) : (byteWord v).toNat = v.toNat := BitVec.toNat_setWidth_of_le (by decide)

/-- Settles O34: the sum of a 12-bit and an 8-bit number does not overflow 16 bits, and the write of pc masks it. -/
theorem jpV0AddsTheOffsetRegister : Obligations.JpV0AddsTheOffsetRegister := by
  unfold Obligations.JpV0AddsTheOffsetRegister
  refine fun x nnn s => ⟨_, exec_jpV0_eq_setPc x nnn s, setPc_pcOnly s _, ?_⟩
  have haddr := nnn.isLt
  have hbyte := (s.jumpOffset x).isLt
  rw [State.setPc_pc, maskPc_toNat, BitVec.toNat_add_of_lt, addrWord_toNat, byteWord_toNat]
  · rfl
  · rw [addrWord_toNat, byteWord_toNat]
    omega

/-! ## Skips -/

/-- Two skips of opposite conditions, as the statements about them say it: one moves pc by 2 mod 4096 where the other
leaves it. -/
theorem skipIf_pair (s : State) {p : Prop} {b c : Bool} (hb : b = true ↔ p) (hc : c = !b) :
    PcOnly s (s.skipIf b) ∧ PcOnly s (s.skipIf c) ∧
    (p → (s.skipIf b).pc.toNat = (s.pc.toNat + 2) % 4096 ∧ (s.skipIf c).pc = s.pc) ∧
    (¬p → (s.skipIf b).pc = s.pc ∧ (s.skipIf c).pc.toNat = (s.pc.toNat + 2) % 4096) := by
  obtain ⟨hbOnly, hbTaken, hbNot⟩ := skipIf_spec s b
  obtain ⟨hcOnly, hcTaken, hcNot⟩ := skipIf_spec s c
  refine ⟨hbOnly, hcOnly, fun hp => ?_, fun hp => ?_⟩
  · have h := hb.2 hp
    exact ⟨hbTaken h, hcNot (by rw [hc, h]; rfl)⟩
  · have h : b = false := Bool.eq_false_iff.2 fun hbt => hp (hb.1 hbt)
    exact ⟨hbNot h, hcTaken (by rw [hc, h]; rfl)⟩

/-- Settles O35: the two conditions are `V[x] = nn` and its negation. -/
theorem immediateSkipsCompareWithTheByte : Obligations.ImmediateSkipsCompareWithTheByte := by
  unfold Obligations.ImmediateSkipsCompareWithTheByte
  exact fun x nn => ⟨decode_encode (.seImm x nn) rfl, decode_encode (.sneImm x nn) rfl, fun s =>
    ⟨_, _, rfl, rfl, skipIf_pair s beq_iff_eq rfl⟩⟩

/-- In families 5 and 9 no arm of the decoder reads the low nibble (R107). -/
theorem decode_formatXYN_seReg (x y : Reg) (n : BitVec 4) : decode (formatXYN 0x5 x y n) = .ok (.seReg x y) := by
  rw [decode, famOf_formatXYN, xOf_formatXYN, yOf_formatXYN]
  rfl

theorem decode_formatXYN_sneReg (x y : Reg) (n : BitVec 4) : decode (formatXYN 0x9 x y n) = .ok (.sneReg x y) := by
  rw [decode, famOf_formatXYN, xOf_formatXYN, yOf_formatXYN]
  rfl

/-- Settles O36: the two conditions are `V[x] = V[y]` and its negation. -/
theorem registerSkipsIgnoreTheLowNibble : Obligations.RegisterSkipsIgnoreTheLowNibble := by
  unfold Obligations.RegisterSkipsIgnoreTheLowNibble
  exact fun x y n => ⟨decode_formatXYN_seReg x y n, decode_formatXYN_sneReg x y n, fun s =>
    ⟨_, _, rfl, rfl, skipIf_pair s beq_iff_eq rfl⟩⟩

theorem held_iff (s : State) (v : Byte) : s.held v = true ↔ v.toNat < 16 ∧ s.keys.getLsbD v.toNat = true := by
  rw [State.held, Bool.and_eq_true, decide_eq_true_eq]

/-- Settles O53: the two conditions are that key V[x] is held and its negation. -/
theorem keySkipsTestTheLatchedMask : Obligations.KeySkipsTestTheLatchedMask := by
  unfold Obligations.KeySkipsTestTheLatchedMask
  exact fun x s => ⟨_, _, rfl, rfl, skipIf_pair s (held_iff s (s.reg x)) rfl⟩

end Sys2Proof.Machine
end

section
/-!
PROOFS. The arithmetic and shifts of family 8 with their flags, RND and the index register's arithmetic
(spec/41_alu_data.md R182, R186 to R190, R192, R193, R197), and who writes VF (spec/10_state.md R33).
-/

namespace Sys2Proof.Machine

/-! ## The meanings, as writes -/

theorem exec_ldReg_eq_setResultFlag (x y : Reg) (s : State) :
    exec (.ldReg x y) s = .next (s.setResultFlag x (s.reg y) 0) := rfl

theorem exec_addReg_eq_setResultFlag (x y : Reg) (s : State) :
    exec (.addReg x y) s = .next (s.setResultFlag x (s.reg x + s.reg y) (carryOf (s.reg x) (s.reg y))) := rfl

theorem exec_sub_eq_setResultFlag (x y : Reg) (s : State) :
    exec (.sub x y) s = .next (s.setResultFlag x (s.reg x - s.reg y) (noBorrowOf (s.reg x) (s.reg y))) := rfl

theorem exec_subn_eq_setResultFlag (x y : Reg) (s : State) :
    exec (.subn x y) s = .next (s.setResultFlag x (s.reg y - s.reg x) (noBorrowOf (s.reg y) (s.reg x))) := rfl

theorem exec_shr_eq_setResultFlag (x y : Reg) (s : State) :
    exec (.shr x y) s = .next (s.setResultFlag x (s.shiftOperand x y >>> 1) (lowBitOf (s.shiftOperand x y))) := rfl

theorem exec_shl_eq_setResultFlag (x y : Reg) (s : State) :
    exec (.shl x y) s = .next (s.setResultFlag x (s.shiftOperand x y <<< 1) (highBitOf (s.shiftOperand x y))) := rfl

theorem exec_rnd_eq_setReg (x : Reg) (nn : Byte) (s : State) :
    exec (.rnd x nn) s = .next (s.countDraw.setReg x (Config.randomByte s.draws &&& nn)) := rfl

theorem exec_addIVx_eq_setIndex (x : Reg) (s : State) :
    exec (.addIVx x) s = .next (s.setIndex (s.I + byteWord (s.reg x))) := rfl

theorem exec_ldFVx_eq_setIndex (x : Reg) (s : State) : exec (.ldFVx x) s = .next (s.setIndex (glyphAddr (s.reg x))) := rfl

/-! ## The flags and results as numbers -/

theorem flagByte_decide_toNat (p : Prop) [Decidable p] : (flagByte (decide p)).toNat = if p then 1 else 0 := by
  rw [flagByte_toNat]
  by_cases h : p <;> simp [h]

theorem carryOf_toNat (a b : Byte) : (carryOf a b).toNat = if a.toNat + b.toNat > 255 then 1 else 0 :=
  flagByte_decide_toNat _

theorem noBorrowOf_toNat (a b : Byte) : (noBorrowOf a b).toNat = if a.toNat ≥ b.toNat then 1 else 0 :=
  flagByte_decide_toNat _

theorem sub_toNat (a b : Byte) : (a - b).toNat = (a.toNat + 256 - b.toNat) % 256 := by
  have := b.isLt
  rw [BitVec.toNat_sub]
  omega

theorem lowBitOf_toNat (v : Byte) : (lowBitOf v).toNat = v.toNat % 2 := by
  rw [lowBitOf, BitVec.toNat_and]
  exact Nat.and_one_is_mod _

theorem highBitOf_toNat (v : Byte) : (highBitOf v).toNat = v.toNat / 128 := by
  have hv := v.isLt
  have h : (highBitOf v).toNat = v.toNat / 128 % 2 := by
    rw [highBitOf, BitVec.toNat_and, BitVec.toNat_ushiftRight, Nat.shiftRight_eq_div_pow]
    exact Nat.and_one_is_mod _
  omega

theorem shiftRight_one_toNat (v : Byte) : (v >>> 1).toNat = v.toNat / 2 := by
  rw [BitVec.toNat_ushiftRight, Nat.shiftRight_eq_div_pow]

theorem shiftLeft_one_toNat (v : Byte) : (v <<< 1).toNat = v.toNat * 2 % 256 := by
  rw [BitVec.toNat_shiftLeft, Nat.shiftLeft_eq]

theorem shiftOperand_eq (s : State) (x y : Reg) :
    s.shiftOperand x y = if s.cfg.shiftSource = .vx then s.reg x else s.reg y := by
  unfold State.shiftOperand
  cases s.cfg.shiftSource <;> rfl

/-! ## The obligations -/

/-- Settles O39: a copy, then the flag 0. -/
theorem ldRegCopiesAndClearsVf : Obligations.LdRegCopiesAndClearsVf := by
  unfold Obligations.LdRegCopiesAndClearsVf
  exact fun x y s => ⟨_, exec_ldReg_eq_setResultFlag x y s, reg_setResultFlag_flag ..,
    fun hx => reg_setResultFlag_result s hx .., regsOnly_setResultFlag ..⟩

/-- Settles O41: the sum of bytes, which wraps, then the carry. -/
theorem addRegSetsTheCarry : Obligations.AddRegSetsTheCarry := by
  unfold Obligations.AddRegSetsTheCarry
  refine fun x y s => ⟨_, exec_addReg_eq_setResultFlag x y s, ?_, fun hx => ?_, regsOnly_setResultFlag ..⟩
  · rw [reg_setResultFlag_flag, carryOf_toNat]
  · rw [reg_setResultFlag_result s hx]
    exact BitVec.toNat_add ..

/-- Settles O42: the difference of bytes, which wraps, then the no-borrow flag, with the operands in either order. -/
theorem subtractionsSetNoBorrow : Obligations.SubtractionsSetNoBorrow := by
  unfold Obligations.SubtractionsSetNoBorrow
  refine fun x y s => ⟨_, _, exec_sub_eq_setResultFlag x y s, exec_subn_eq_setResultFlag x y s, ?_, ?_, fun hx => ?_,
    regsOnly_setResultFlag .., regsOnly_setResultFlag ..⟩
  · rw [reg_setResultFlag_flag, noBorrowOf_toNat]
  · rw [reg_setResultFlag_flag, noBorrowOf_toNat]
  · rw [reg_setResultFlag_result s hx, reg_setResultFlag_result s hx]
    exact ⟨sub_toNat .., sub_toNat ..⟩

/-- Settles O43: a shift by one of the operand that SHIFT_SOURCE names, then the bit that leaves it. -/
theorem shiftsSetTheBitShiftedOut : Obligations.ShiftsSetTheBitShiftedOut := by
  unfold Obligations.ShiftsSetTheBitShiftedOut
  intro x y s v hv
  obtain rfl : v = s.shiftOperand x y := hv.trans (shiftOperand_eq s x y).symm
  refine ⟨_, _, exec_shr_eq_setResultFlag x y s, exec_shl_eq_setResultFlag x y s, ?_, ?_, fun hx => ?_,
    regsOnly_setResultFlag .., regsOnly_setResultFlag ..⟩
  · rw [reg_setResultFlag_flag, lowBitOf_toNat]
  · rw [reg_setResultFlag_flag, highBitOf_toNat]
  · rw [reg_setResultFlag_result s hx, reg_setResultFlag_result s hx]
    exact ⟨shiftRight_one_toNat _, shiftLeft_one_toNat _⟩

/-- Settles O44: one register write, on the state that has counted the draw. -/
theorem rndMasksOneDraw : Obligations.RndMasksOneDraw := by
  unfold Obligations.RndMasksOneDraw
  refine fun x nn s => ⟨_, exec_rnd_eq_setReg x nn s, reg_setReg_same .., ?_, rfl, regsOnly_setReg s.countDraw x _⟩
  rintro rfl
  rw [reg_setReg_same]
  exact BitVec.and_zero

/-- Settles O46: both are a write of I alone; five bytes times a digit does not overflow. -/
theorem indexArithmetic : Obligations.IndexArithmetic := by
  unfold Obligations.IndexArithmetic
  refine fun x s => ⟨_, _, exec_addIVx_eq_setIndex x s, exec_ldFVx_eq_setIndex x s, ?_, ?_,
    setIndex_indexOnly s _, setIndex_indexOnly s _⟩
  · rw [State.setIndex_I, BitVec.toNat_add, byteWord_toNat]
  · rw [State.setIndex_I, glyphAddr, BitVec.toNat_ofNat]
    omega

/-! ## Who writes VF (R33) -/

theorem flagByte_toNat_le (b : Bool) : (flagByte b).toNat ≤ 1 := by
  rw [flagByte_toNat]
  exact Bool.toNat_le b

/-- An instruction that writes VF as a flag writes it last, and the flag is 0 or 1. -/
theorem exec_flag_le {i : Instr} {s t : State} (h : exec i s = .next t) (hi : writesFlag i = true) :
    (t.reg 15#4).toNat ≤ 1 := by
  cases i
  case ldReg | or | and | xor =>
    cases h
    exact (congrArg BitVec.toNat (reg_setResultFlag_flag ..)).trans_le (by decide)
  case addReg | sub | subn =>
    cases h
    exact (congrArg BitVec.toNat (reg_setResultFlag_flag ..)).trans_le (flagByte_toNat_le _)
  case shr x y =>
    cases h
    rw [reg_setResultFlag_flag, lowBitOf_toNat]
    omega
  case shl x y =>
    cases h
    have := (s.shiftOperand x y).isLt
    rw [reg_setResultFlag_flag, highBitOf_toNat]
    omega
  case drw =>
    cases h
    exact (congrArg BitVec.toNat (reg_setReg_same ..)).trans_le (flagByte_toNat_le _)
  all_goals cases hi

theorem reg_setReg_of_ne (s : State) {x r : Reg} (h : r ≠ x) (v : Byte) : (s.setReg x v).reg r = s.reg r := by
  rw [reg_setReg, if_neg h]

/-- FX65 with x below 15 loads no byte into VF. -/
theorem reg_loadRegs_flag (s : State) (base : Nat) {x : Reg} (hx : x ≠ 15#4) :
    (s.loadRegs base (x.toNat + 1)).reg 15#4 = s.reg 15#4 := by
  have hlt : ¬(15#4).toNat < x.toNat + 1 := by
    have := x.isLt
    have hne : x.toNat ≠ 15 := fun h => hx (BitVec.eq_of_toNat_eq h)
    simp only [BitVec.toNat_ofNat]
    omega
  rw [reg_loadRegs, if_neg hlt]

theorem writesVfAsRegister_ne {x : Reg} (h : (x == flagReg) = false) : 15#4 ≠ x :=
  fun he => beq_eq_false_iff_ne.1 h he.symm

/-- An instruction that writes VF neither as a flag nor as its destination leaves it: it writes another register, or no
register at all. -/
theorem exec_keeps_vf {i : Instr} {s t : State} (h : exec i s = .next t) (hflag : writesFlag i = false)
    (hreg : writesVfAsRegister i = false) : t.reg 15#4 = s.reg 15#4 := by
  cases i
  case ldReg | or | and | xor | addReg | sub | shr | subn | shl | drw => cases hflag
  case call => obtain ⟨_, rfl⟩ := execCall_next h; rfl
  case ret => obtain ⟨_, rfl⟩ := execRet_next h; rfl
  case ldImm | addImm | ldVxDt => cases h; exact reg_setReg_of_ne s (writesVfAsRegister_ne hreg) _
  case rnd => cases h; exact reg_setReg_of_ne s.countDraw (writesVfAsRegister_ne hreg) _
  case ldVxK =>
    cases h
    split
    · exact reg_setReg_of_ne s (writesVfAsRegister_ne hreg) _
    · rfl
  case ldVxMem => cases h; exact reg_loadRegs_flag s _ (writesVfAsRegister_ne hreg).symm
  case seImm | sneImm | seReg | sneReg | skp | sknp => cases h; rw [State.skipIf_eq]; rfl
  all_goals cases h; rfl

/-- Settles O25: by the writers of the flag, and by the instructions that are none. -/
theorem vfIsWrittenOnlyByItsWriters : Obligations.VfIsWrittenOnlyByItsWriters := by
  unfold Obligations.VfIsWrittenOnlyByItsWriters
  exact fun i s t h => ⟨exec_flag_le h, exec_keeps_vf h⟩

end Sys2Proof.Machine
end

section
/-!
PROOFS. Memory and the index register (spec/20_memory.md R72, R73, R75, R84, spec/41_alu_data.md R194 to R196): what the
fetch reads, and the stores and loads at I.
-/

namespace Sys2Proof.Machine

/-! ## The fetched word (R72) -/

theorem wordOfBytes_high (hi lo : Byte) : (wordOfBytes hi lo).extractLsb' 8 8 = hi :=
  BitVec.extractLsb'_append_eq_left

theorem wordOfBytes_low (hi lo : Byte) : (wordOfBytes hi lo).extractLsb' 0 8 = lo :=
  BitVec.extractLsb'_append_eq_right

/-- Settles O13: below 4095 neither address of the fetch is reduced. -/
theorem instructionWordsAreBigEndian : Obligations.InstructionWordsAreBigEndian := by
  unfold Obligations.InstructionWordsAreBigEndian
  intro s hpc
  rw [State.fetchWord, wordOfBytes_high, wordOfBytes_low, State.load8, State.load8, Nat.mod_eq_of_lt (by omega),
    Nat.mod_eq_of_lt (by omega)]
  exact ⟨rfl, rfl⟩

/-! ## Bytes after a run of stores -/

/-- A byte read depends on memory and on the address mod 4096. -/
theorem load8_congr {s t : State} {a b : Nat} (hmem : t.mem = s.mem) (hab : a % 4096 = b % 4096) :
    t.load8 a = s.load8 b := by
  rw [State.load8, State.load8, hmem, hab]

/-- Byte k of the run is at distance k from its start (R75). -/
theorem load8_storeBytes_at {s : State} (hs : Memory.wf s.mem = true) (a : Nat) {bs : List Byte}
    (hl : bs.length ≤ 4096) {k : Nat} (hk : k < bs.length) : (s.storeBytes a bs).load8 (a + k) = bs[k] :=
  Memory.read_writeBytes_at hs hl hk

/-- A byte at a distance that the run does not reach is as before. -/
theorem load8_storeBytes_outside {s : State} (hs : Memory.wf s.mem = true) {a b : Nat} {bs : List Byte}
    (hl : bs.length ≤ 4096) (hb : b < 4096) (hout : bs.length ≤ (b + 4096 - a % 4096) % 4096) :
    (s.storeBytes a bs).load8 b = s.load8 b := by
  rw [load8_storeBytes hs hl, Nat.mod_eq_of_lt hb, dif_neg (by omega)]

/-! ## FX55 (R194) -/

theorem exec_ldMemVx_eq (x : Reg) (s : State) :
    exec (.ldMemVx x) s = .next ((s.storeBytes s.I.toNat (s.regsUpTo x)).indexPast x) := rfl

theorem regsUpTo_length_le (s : State) (x : Reg) : (s.regsUpTo x).length ≤ 4096 := by
  have := x.isLt
  rw [regsUpTo_length]
  omega

/-- Register k, if x reaches it, is stored at distance k from I. -/
theorem load8_storeRegs {s : State} (hs : Memory.wf s.mem = true) {x k : Reg} (hk : k.toNat ≤ x.toNat) :
    (s.storeBytes s.I.toNat (s.regsUpTo x)).load8 (s.I.toNat + k.toNat) = s.reg k := by
  have hlt : k.toNat < (s.regsUpTo x).length := by
    rw [regsUpTo_length]
    omega
  rw [load8_storeBytes_at hs _ (regsUpTo_length_le s x) hlt, regsUpTo_getElem]

/-- Settles O47: a run of stores of V0 to Vx, then the move of I. -/
theorem storeRegsWritesUpToVx : Obligations.StoreRegsWritesUpToVx := by
  unfold Obligations.StoreRegsWritesUpToVx
  refine fun x s hs => ⟨_, exec_ldMemVx_eq x s, indexPast_toNat _ x, rfl, fun k hk => load8_storeRegs hs hk,
    fun a ha hout => load8_storeBytes_outside hs (regsUpTo_length_le s x) ha ?_⟩
  rw [regsUpTo_length]
  exact hout

/-- Settles O29: the two bytes that the fetch reads are V0 and V1, stored at I and I + 1. -/
theorem storesAreSeenByTheNextFetch : Obligations.StoresAreSeenByTheNextFetch := by
  unfold Obligations.StoresAreSeenByTheNextFetch
  intro x s t u hs hx hexec hmem hpc
  obtain rfl := Host.Outcome.next.inj ((exec_ldMemVx_eq x s).symm.trans hexec)
  have hV0 := load8_storeRegs hs (x := x) (k := 0) (Nat.zero_le _)
  have hV1 := load8_storeRegs hs (x := x) (k := 1) hx
  rw [State.fetchWord, ← hV0, ← hV1]
  congr 1
  · exact load8_congr hmem (by rw [hpc]; simp)
  · exact load8_congr hmem (by rw [hpc]; simp)

/-! ## FX65 (R195) -/

theorem exec_ldVxMem_eq (x : Reg) (s : State) :
    exec (.ldVxMem x) s = .next ((s.loadRegs s.I.toNat (x.toNat + 1)).indexPast x) := rfl

/-- Settles O48: the registers up to x are loaded from the old I on, then I moves. -/
theorem loadRegsReadsUpToVx : Obligations.LoadRegsReadsUpToVx := by
  unfold Obligations.LoadRegsReadsUpToVx
  refine fun x s => ⟨_, exec_ldVxMem_eq x s, indexPast_toNat _ x, rfl, fun k hk => ?_, fun k hk => ?_⟩
  · exact (reg_loadRegs s _ _ k).trans (if_pos (by omega))
  · exact (reg_loadRegs s _ _ k).trans (if_neg (by omega))

/-! ## FX33 (R196) -/

theorem exec_ldBVx_eq (x : Reg) (s : State) :
    exec (.ldBVx x) s = .next (s.storeBytes s.I.toNat (decimalDigits (s.reg x))) := rfl

theorem decimalDigits_length_le (v : Byte) : (decimalDigits v).length ≤ 4096 :=
  show 3 ≤ 4096 by decide

/-- Each decimal digit of a byte fits a byte. -/
theorem decimalDigits_toNat (v : Byte) :
    (decimalDigits v).map BitVec.toNat = [v.toNat / 100, v.toNat / 10 % 10, v.toNat % 10] := by
  have hv := v.isLt
  simp only [decimalDigits, List.map_cons, List.map_nil, BitVec.toNat_ofNat, List.cons.injEq, and_true]
  omega

/-- Digit k is stored at distance k from I. -/
theorem load8_storeDigits {s : State} (hs : Memory.wf s.mem = true) (v : Byte) (k : Nat) (hk : k < 3) :
    ((s.storeBytes s.I.toNat (decimalDigits v)).load8 (s.I.toNat + k)).toNat =
      [v.toNat / 100, v.toNat / 10 % 10, v.toNat % 10][k] := by
  rw [load8_storeBytes_at hs _ (decimalDigits_length_le v) hk]
  simp only [← decimalDigits_toNat, List.getElem_map]
  rfl

/-- Settles O49: a run of three stores at I. -/
theorem bcdStoresThreeDigits : Obligations.BcdStoresThreeDigits := by
  unfold Obligations.BcdStoresThreeDigits
  refine fun x s hs => ⟨_, exec_ldBVx_eq x s, rfl, load8_storeDigits hs _ 0 (by decide),
    load8_storeDigits hs _ 1 (by decide), load8_storeDigits hs _ 2 (by decide),
    fun a ha hout => load8_storeBytes_outside hs (decimalDigits_length_le _) ha hout⟩

end Sys2Proof.Machine
end

section
/-!
PROOFS. DRW (spec/42_drawing.md R241 to R243): what one draw does to the cells and to VF, and that the same draw again
undoes it.
-/

namespace Sys2Proof.Machine

/-- What DRW leaves (R241, R243): the sprite's bits inverted, VF the collision, nothing else. -/
structure Drawn (s : State) (x y : Reg) (n : BitVec 4) (t : State) : Prop where
  frame : t = { s with fb := t.fb, V := t.V }
  cells : ∀ row col, row < 32 → col < 64 → cell t.fb row col = (cell s.fb row col ^^ s.spriteBit x y n row col)
  regs : ∀ r : Reg, r ≠ 15#4 → t.reg r = s.reg r
  flag : t.reg 15#4 = 0 ∨ t.reg 15#4 = 1
  hit : t.reg 15#4 = 1 ↔ ∃ row col, row < 32 ∧ col < 64 ∧ s.spriteBit x y n row col = true ∧ cell s.fb row col = true

theorem flagByte_eq_zero_or_one (b : Bool) : flagByte b = 0 ∨ flagByte b = 1 := by
  cases b
  · exact .inl rfl
  · exact .inr rfl

theorem flagByte_eq_one_iff (b : Bool) : flagByte b = 1 ↔ b = true := by
  cases b <;> decide

theorem exec_drw_spec (x y : Reg) (n : BitVec 4) (s : State) : ∃ t, exec (.drw x y n) s = .next t ∧ Drawn s x y n t := by
  obtain ⟨hcells, hhit⟩ := drawSprite_spec s x y n
  refine ⟨_, rfl, rfl, hcells, fun r hr => reg_setReg_of_ne _ hr _, ?_, ?_⟩
  · rw [reg_setReg_same]
    exact flagByte_eq_zero_or_one _
  · rw [reg_setReg_same, flagByte_eq_one_iff]
    exact hhit

/-- Settles O51: one draw, by the closed form of its sprite's bits. -/
theorem drwInvertsTheSpriteCells : Obligations.DrwInvertsTheSpriteCells := by
  unfold Obligations.DrwInvertsTheSpriteCells
  intro x y n s
  obtain ⟨t, ht, hdrawn⟩ := exec_drw_spec x y n s
  exact ⟨t, ht, hdrawn.frame, hdrawn.cells, hdrawn.regs, hdrawn.flag, hdrawn.hit⟩

/-- The sprite is the same after the draw, unless VF is one of its coordinates. -/
theorem Drawn.spriteBit {s t : State} {x y : Reg} {n : BitVec 4} (h : Drawn s x y n t) (hx : x ≠ 15#4) (hy : y ≠ 15#4)
    (row col : Nat) : t.spriteBit x y n row col = s.spriteBit x y n row col := by
  have hframe := h.frame
  have hmem : t.mem = s.mem := by rw [hframe]
  have hI : t.I = s.I := by rw [hframe]
  have hcfg : t.cfg = s.cfg := by rw [hframe]
  simp only [State.spriteBit, State.load8, h.regs x hx, h.regs y hy, hmem, hI, hcfg]

/-- Settles O52: the second draw inverts the same cells, and collides where the first one left a cell lit. -/
theorem drawingTwiceRestoresTheFramebuffer : Obligations.DrawingTwiceRestoresTheFramebuffer := by
  unfold Obligations.DrawingTwiceRestoresTheFramebuffer
  intro x y n s t hx hy ht
  obtain ⟨t', ht', first⟩ := exec_drw_spec x y n s
  obtain rfl : t = t' := Host.Outcome.next.inj (ht.symm.trans ht')
  obtain ⟨u, hu, second⟩ := exec_drw_spec x y n t
  refine ⟨u, hu, fun row col hr hc => ?_, second.hit.trans ?_⟩
  · rw [second.cells row col hr hc, first.cells row col hr hc, first.spriteBit hx hy, Bool.xor_assoc, Bool.xor_self,
      Bool.xor_false]
  · refine exists_congr fun row => exists_congr fun col => and_congr_right fun hr => and_congr_right fun hc => ?_
    rw [first.cells row col hr hc, first.spriteBit hx hy]
    refine and_congr_right fun hbit => ?_
    rw [hbit, Bool.xor_true, Bool.not_eq_true']

end Sys2Proof.Machine
end

section
/-!
PROOFS. Keys and the delay timer (spec/43_input_wait.md R262, R263, spec/44_timers.md R280): FX0A and the wait phase by the
lowest key that went down, and FX07 in its step.
-/

namespace Sys2Proof.Machine

/-! ## New keys -/

theorem lowestKey_newKeys_eq_none (s : State) : lowestKey s.newKeys = none ↔ ∀ k, ¬LowestNew s.prev s.keys k := by
  simp only [Option.eq_none_iff_forall_ne_some, ne_eq, lowestKey_newKeys]

/-- A key number fits a byte. -/
theorem reg_setReg_key_toNat (s : State) (r : Reg) {prev keys : Word} {k : Nat} (hk : LowestNew prev keys k) :
    ((s.setReg r (BitVec.ofNat 8 k)).reg r).toNat = k := by
  obtain ⟨hlt, -⟩ := hk
  rw [reg_setReg_same, BitVec.toNat_ofNat]
  omega

/-! ## FX0A (R262) -/

theorem exec_ldVxK_of_key {s : State} {k : Nat} (hk : LowestNew s.prev s.keys k) (x : Reg) :
    exec (.ldVxK x) s = .next (s.setReg x (BitVec.ofNat 8 k)) := by
  rw [exec, execLdVxK, (lowestKey_newKeys s k).2 hk]

theorem exec_ldVxK_of_no_key {s : State} (hk : ∀ k, ¬LowestNew s.prev s.keys k) (x : Reg) :
    exec (.ldVxK x) s = .next ((s.setWait (some x)).setPc s.instrAddr) := by
  rw [exec, execLdVxK, (lowestKey_newKeys_eq_none s).2 hk]

/-- Settles O54: by whether a key went down; the address that a wait puts in pc is below 4096 already. -/
theorem fx0aCompletesOrWaits : Obligations.Fx0aCompletesOrWaits := by
  unfold Obligations.Fx0aCompletesOrWaits
  refine fun x s => ⟨fun k hk => ⟨_, exec_ldVxK_of_key hk x, reg_setReg_key_toNat s x hk, regsOnly_setReg s x _⟩,
    fun hk => ⟨_, exec_ldVxK_of_no_key hk x, rfl, ?_, rfl⟩⟩
  rw [State.setPc_pc, maskPc_toNat, instrAddr_toNat, Nat.mod_mod]

/-! ## The wait phase (R263) -/

theorem waitPhase_of_key {s : State} {k : Nat} (hk : LowestNew s.prev s.keys k) (r : Reg) :
    s.waitPhase r = ((s.setReg r (BitVec.ofNat 8 k)).setWait none).advance := by
  rw [State.waitPhase, (lowestKey_newKeys s k).2 hk]

theorem waitPhase_of_no_key {s : State} (hk : ∀ k, ¬LowestNew s.prev s.keys k) (r : Reg) : s.waitPhase r = s := by
  rw [State.waitPhase, (lowestKey_newKeys_eq_none s).2 hk]

/-- A step of a waiting engine fetches nothing: it is the wait phase, finished. -/
theorem step_of_wait {s : State} {r : Reg} (ha : Accepts s) (hw : s.wait = some r) :
    step s = .next (((s.popCall.latchKeys s.nextArgs.keys).waitPhase r).finish (s.tickOf s.nextArgs)) := by
  have hwait : (s.popCall.latchKeys s.nextArgs.keys).wait = some r := hw
  rw [step_of_accepts ha, State.runStep, State.phase3, hwait]

/-- Settles O24: by whether a key went down between the old latch and the step's argument. -/
theorem waitPhaseCompletesOnlyOnANewKey : Obligations.WaitPhaseCompletesOnlyOnANewKey := by
  unfold Obligations.WaitPhaseCompletesOnlyOnANewKey
  intro s r ha hw
  refine ⟨fun k hk => ?_, fun hk => ?_⟩
  · have hphase := waitPhase_of_key (s := s.popCall.latchKeys s.nextArgs.keys) hk r
    refine ⟨_, step_of_wait ha hw, ?_⟩
    rw [hphase]
    exact ⟨reg_setReg_key_toNat (s.popCall.latchKeys s.nextArgs.keys) r hk,
      fun q hq => reg_setReg_of_ne (s.popCall.latchKeys s.nextArgs.keys) hq _, advance_pc_toNat s, rfl⟩
  · have hphase := waitPhase_of_no_key (s := s.popCall.latchKeys s.nextArgs.keys) hk r
    refine ⟨_, step_of_wait ha hw, ?_⟩
    rw [hphase]
    rfl

/-! ## FX07 (R280) -/

theorem exec_ldVxDt_eq_setReg (x : Reg) (s : State) : exec (.ldVxDt x) s = .next (s.setReg x s.DT) := rfl

/-- Settles O55: one register write; the step's decay comes after it and writes no register. -/
theorem ldVxDtReadsTheDelayTimer : Obligations.LdVxDtReadsTheDelayTimer := by
  unfold Obligations.LdVxDtReadsTheDelayTimer
  exact ⟨fun x s => ⟨_, exec_ldVxDt_eq_setReg x s, reg_setReg_same .., regsOnly_setReg ..⟩, fun x s ha hf =>
    ⟨_, step_of_exec_next ha hf (exec_ldVxDt_eq_setReg x s.entered), reg_setReg_same s.entered x s.DT⟩⟩

end Sys2Proof.Machine
end
